-- ==== Sys2Proof/Word.lean ====
section
/-! DEFINITION. The widths of the hardware (00_scope R7, R9; 10_state R14): bytes of the buffers and of the entropy
port, the 16-bit length registers, the 32-bit command word. Every number is unsigned (R9). -/

namespace Sys2Proof

/-- One element of IBUF or OBUF, one entropy byte, and the width of STATUS. -/
abbrev Byte := BitVec 8

/-- The width of ILEN, OLEN, CAPR and of the operand `imm` (00_scope R7, IMMW). -/
abbrev Half := BitVec 16

/-- The width of a command word (00_scope R7, CMDW). -/
abbrev Word := BitVec 32

end Sys2Proof
end

