-- ==== Sys2Proof/Config.lean ====
section
/-! DEFINITION. What an instance fixes (the capacity) and what the spec leaves free (the answers of the entropy
source). -/

namespace Sys2Proof

/-- One answer of the entropy source to one draw (40_keygen R60). -/
inductive Draw where
  /-- The draw is answered with this byte. -/
  | byte (b : Byte)
  /-- The source is "unavailable/exhausted" at this draw. -/
  | unavailable
deriving DecidableEq, Repr, Inhabited

/-- The least legal capacity (00_scope R7: 255 ≤ CAP ≤ 65535). -/
def Config.minCap : Nat := 255

/-- The capacity the spec recommends (00_scope R7). DESIGN CHOICE, log entry 1: the state after reset has it, every
statement is for any capacity. -/
def Config.recommendedCap : Half := 2048#16

/-- FREE VALUE, log entry 2. What the entropy source answers to draw number n of the machine's life when the run's own
list of answers is used up: any byte, or `unavailable` (40_keygen R60; 93 U2, U3). It has no body: nothing can be
proved of it, and it is no generator (R70). -/
opaque Config.freeDraw : Nat → Draw

end Sys2Proof
end

