-- ==== Sys2Proof/Syntax.lean ====
section
/-! DEFINITION. The commands: one constructor per row of spec/opcode_table.json (30_encoding R47 to R52). The byte
sequence that PAD and UNPAD work on is no operand of the word: it is IBUF[0..ILEN) (R48). -/

namespace Sys2Proof

inductive Instr where
  /-- GEN: `imm` is the number of bytes to generate (40_keygen R64). -/
  | gen (imm : Half)
  /-- KEYDES: `imm` must be 0 (40_keygen R65). -/
  | keydes (imm : Half)
  /-- KEY3DES: `imm` is the key option (40_keygen R66). -/
  | key3des (imm : Half)
  /-- KEYAES: `imm` is the key length in bits (40_keygen R67). -/
  | keyaes (imm : Half)
  /-- GENIV: `imm` is the block size in bytes (40_keygen R68). -/
  | geniv (imm : Half)
  /-- GENKEY with a class that names nothing (40_keygen R69). -/
  | genkeyUndef (cls : Byte) (imm : Half)
  /-- PAD: `imm` is the block size (41_pkcs7 R76). -/
  | pad (imm : Half)
  /-- UNPAD: no operand in the word (41_pkcs7 R79). -/
  | unpad
  /-- CLR: no operand (42_control_and_host R87). -/
  | clr
deriving DecidableEq, Repr

end Sys2Proof
end

