-- ==== Sys2Proof/WellFormed.lean ====
section
/-! DEFINITION. Which terms of Instr some command word spells. The widths of the fields are in their types, so one
check remains: the undefined classes of GENKEY are 0x04 to 0xFF (30_encoding R50, R52: "Row 6 is reached only when
cls ≥ 4"). Every value of `imm` is well formed under rows 1 to 5 and 7; its domain is the command's own business (R52). -/

namespace Sys2Proof

def Instr.wellFormed : Instr → Bool
  | .gen _ => true
  | .keydes _ => true
  | .key3des _ => true
  | .keyaes _ => true
  | .geniv _ => true
  | .genkeyUndef cls _ => decide (4 ≤ cls.toNat)
  | .pad _ => true
  | .unpad => true
  | .clr => true

end Sys2Proof
end

