-- ==== Sys2Proof/Decode.lean ====
section
/-! DEFINITION. The command word: its fields (30_encoding R47), decoding (R51), the match and mask table (R52) and the
encoder. -/

namespace Sys2Proof

/-! ### Fields (R47) -/

/-- `opc`, bits 31:24. -/
def opcOf (w : Word) : Byte := w.extractLsb' 24 8

/-- `cls`, bits 23:16. -/
def clsOf (w : Word) : Byte := w.extractLsb' 16 8

/-- `imm`, bits 15:0. -/
def immOf (w : Word) : Half := w.extractLsb' 0 16

/-- The word opc·2^24 + cls·2^16 + imm, that is the concatenation of the three fields (R47). -/
def packWord (opc cls : Byte) (imm : Half) : Word := opc ++ cls ++ imm

/-! ### Decoding (R51) -/

/-- Why a word is no command (R54). All three end in the failure IllegalCommand; the name is for the reader. -/
inductive IllegalWord where
  /-- `opc` is none of 0x01, 0x02, 0x10, 0x11, 0x20 (R49). -/
  | undefinedOpcode
  /-- `cls` is not zero under an opcode that reserves it (R53). -/
  | reservedCls
  /-- `imm` is not zero under UNPAD or CLR (R53). -/
  | reservedImm
deriving DecidableEq, Repr

/-- What a word written to CMD is. -/
inductive Decoded where
  | command (i : Instr)
  | illegal (why : IllegalWord)
deriving DecidableEq, Repr

/-- The key class of opcode GENKEY (R50). -/
def decodeGenkey (cls : Byte) (imm : Half) : Instr :=
  if cls = 0x00#8 then .keydes imm
  else if cls = 0x01#8 then .key3des imm
  else if cls = 0x02#8 then .keyaes imm
  else if cls = 0x03#8 then .geniv imm
  else .genkeyUndef cls imm

/-- Decoding, total: the procedure of R51. -/
def decode (w : Word) : Decoded :=
  if opcOf w = 0x01#8 then
    if clsOf w = 0#8 then .command (.gen (immOf w)) else .illegal .reservedCls
  else if opcOf w = 0x02#8 then
    .command (decodeGenkey (clsOf w) (immOf w))
  else if opcOf w = 0x10#8 then
    if clsOf w = 0#8 then .command (.pad (immOf w)) else .illegal .reservedCls
  else if opcOf w = 0x11#8 then
    if clsOf w = 0#8 then
      if immOf w = 0#16 then .command .unpad else .illegal .reservedImm
    else .illegal .reservedCls
  else if opcOf w = 0x20#8 then
    if clsOf w = 0#8 then
      if immOf w = 0#16 then .command .clr else .illegal .reservedImm
    else .illegal .reservedCls
  else .illegal .undefinedOpcode

/-! ### Match and mask (R52) -/

/-- One row of the table of R52. -/
structure OpcodeRow where
  mask : Word
  pat : Word
  /-- The mnemonic of the row in spec/opcode_table.json. -/
  mnemonic : String
deriving DecidableEq, Repr

/-- The nine rows in the order of R52. -/
def opcodeRows : List OpcodeRow :=
  [⟨0xFFFF0000#32, 0x01000000#32, "GEN"⟩,
   ⟨0xFFFF0000#32, 0x02000000#32, "KEYDES"⟩,
   ⟨0xFFFF0000#32, 0x02010000#32, "KEY3DES"⟩,
   ⟨0xFFFF0000#32, 0x02020000#32, "KEYAES"⟩,
   ⟨0xFFFF0000#32, 0x02030000#32, "GENIV"⟩,
   ⟨0xFF000000#32, 0x02000000#32, "GENKEY.UNDEF"⟩,
   ⟨0xFFFF0000#32, 0x10000000#32, "PAD"⟩,
   ⟨0xFFFFFFFF#32, 0x11000000#32, "UNPAD"⟩,
   ⟨0xFFFFFFFF#32, 0x20000000#32, "CLR"⟩]

/-- The mnemonic of the first row that matches the word (R52), none for a word that matches no row. -/
def firstMatch (w : Word) : Option String :=
  (opcodeRows.find? (fun r => decide (w &&& r.mask = r.pat))).map (fun r => r.mnemonic)

/-- The table's name of an instruction. -/
def Instr.mnemonic : Instr → String
  | .gen _ => "GEN"
  | .keydes _ => "KEYDES"
  | .key3des _ => "KEY3DES"
  | .keyaes _ => "KEYAES"
  | .geniv _ => "GENIV"
  | .genkeyUndef _ _ => "GENKEY.UNDEF"
  | .pad _ => "PAD"
  | .unpad => "UNPAD"
  | .clr => "CLR"

/-- The table's name of what a word decodes to. -/
def Decoded.mnemonic? : Decoded → Option String
  | .command i => some i.mnemonic
  | .illegal _ => none

/-! ### Encoding (R47, R49, R50) -/

/-- The opcode of a command (R49). -/
def Instr.opcode : Instr → Byte
  | .gen _ => 0x01#8
  | .keydes _ => 0x02#8
  | .key3des _ => 0x02#8
  | .keyaes _ => 0x02#8
  | .geniv _ => 0x02#8
  | .genkeyUndef _ _ => 0x02#8
  | .pad _ => 0x10#8
  | .unpad => 0x11#8
  | .clr => 0x20#8

/-- The key class of a command (R50), zero where the field is reserved (R53). -/
def Instr.keyClass : Instr → Byte
  | .gen _ => 0x00#8
  | .keydes _ => 0x00#8
  | .key3des _ => 0x01#8
  | .keyaes _ => 0x02#8
  | .geniv _ => 0x03#8
  | .genkeyUndef cls _ => cls
  | .pad _ => 0x00#8
  | .unpad => 0x00#8
  | .clr => 0x00#8

/-- The operand of a command (R48), zero where the field is reserved (R53). -/
def Instr.operand : Instr → Half
  | .gen imm => imm
  | .keydes imm => imm
  | .key3des imm => imm
  | .keyaes imm => imm
  | .geniv imm => imm
  | .genkeyUndef _ imm => imm
  | .pad imm => imm
  | .unpad => 0#16
  | .clr => 0#16

/-- The word of a command. -/
def encode (i : Instr) : Word := packWord i.opcode i.keyClass i.operand

/-! ### The opcode table's numbering -/

/-- The instruction of a word numbered as spec/opcode_table.json numbers it. A command is one 32-bit number written
whole, with no byte order of its own (20_memory R33; 30_encoding R56), so the table's number IS the word written to CMD
(log entry 10). -/
def decodeTableWord (nbits w : Nat) : Option Instr :=
  if nbits ≤ 32 ∧ w < 2 ^ nbits then
    match decode (BitVec.ofNat 32 w) with
    | .command i => some i
    | .illegal _ => none
  else none

end Sys2Proof
end

