-- ==== Sys2Proof/Machine/State.lean ====
section
/-! DEFINITION. The state of one engine (10_state R13) and, beside it, the inputs and outputs of a run (70 R128): the
host's script, the answers of the entropy source, the values the reads returned. All of it is plain data. -/

namespace Sys2Proof.Machine

/-- A buffer: the bytes that are not 0x00, by rising index (log entry 8). -/
abbrev Memory := List Host.Cell

/-- The host-visible spaces (20_memory R30). -/
inductive Space where
  | reg
  | ibuf
  | obuf
deriving DecidableEq, Repr

/-- One host access (20_memory R31): `MemRead(space, index, width)` or `MemWrite(space, index, width, value)`, with any
numbers, so that the reserved accesses of R38 can be written down too. -/
inductive HostAccess where
  | read (space : Space) (index width : Nat)
  | write (space : Space) (index width value : Nat)
deriving DecidableEq, Repr

/-- One line of a host script (30_encoding R57, R58), or the reset from outside (70 R113). -/
inductive ScriptLine where
  /-- `RD`, `WR`, `WRB`, `RDI`, `RDB`. -/
  | access (a : HostAccess)
  /-- A command mnemonic: the write of its word to CMD. -/
  | command (i : Instr)
  /-- `LOAD b0 b1 …`. -/
  | load (bytes : List Byte)
  /-- `READOUT`. -/
  | readout
  /-- `COPYBACK`. -/
  | copyback
  /-- Power-on or the platform's reset input; no line of R57. -/
  | reset
deriving DecidableEq, Repr

/-- A value a host read returned, at its own width (42 R88, R91, R92). -/
inductive ReadValue where
  | byte (b : Byte)
  | half (h : Half)
deriving DecidableEq, Repr

structure State where
  /-- STATUS (10_state R16): ERR in bits 3:0, DONE in bit 4. -/
  status : Byte
  /-- ILEN (R17). -/
  ilen : Half
  /-- OLEN (R18). -/
  olen : Half
  /-- CAPR, the constant CAP of this instance (R22; log entry 1). -/
  capr : Half
  /-- IBUF (R19). -/
  ibuf : Memory
  /-- OBUF (R20). -/
  obuf : Memory
  /-- RNGOUT.DATA, hidden (R21). -/
  rngData : Byte
  /-- RNGOUT.VALID, hidden (R21). -/
  rngValid : Bool
  /-- The model's own: the answers the entropy source gives to the next draws, in order (70 R128; log entry 2). -/
  answers : List Draw
  /-- The model's own: how many draws have been made (log entry 2). -/
  draws : Nat
  /-- The model's own: the host's lines still to come (70 R128; log entry 3). -/
  script : List ScriptLine
  /-- The model's own: what the reads returned, oldest first (70 R128; log entry 3). -/
  outputs : List ReadValue
deriving DecidableEq, Repr

/-- A machine-stopping fault. There is none: a failure is a code in STATUS and the engine goes on (60 R96), and "No
entry has the treatment stuck" (93 section 1). -/
inductive Fault where
deriving DecidableEq, Repr

/-- Why a step has no meaning. All but the first are the reserved accesses of 20_memory R38, to which the spec gives "no
effect and no returned value" and which "a model should refuse" (log entry 6). Safe: nothing is claimed of such a run. -/
inductive Refusal where
  /-- Raised by an arm of `exec` whose instruction has no meaning yet; no arm does. Safe. -/
  | notModelled (mnemonic : String)
  /-- R38(a): a read of CMD. Raised by a host read. Safe. -/
  | readOfCmd
  /-- R38(b): a write of STATUS, OLEN or CAPR. Raised by a host write. Safe. -/
  | writeOfReadOnlyRegister
  /-- R38(c): a register number of 5 or more. Raised by a host read or write. Safe. -/
  | reservedRegister
  /-- R38(d): a buffer index at or above CAP. Raised by a host read or write. Safe. -/
  | indexBeyondCapacity
  /-- R38(e): a write to OBUF. Raised by a host write. Safe. -/
  | writeOfOutputBuffer
  /-- R38(f): a width other than the target's. Raised by a host read or write. Safe. -/
  | wrongWidth
  /-- R38(g): a value that does not fit the target. Raised by a host write. Safe. -/
  | valueTooWide
deriving DecidableEq, Repr

/-- The state right after reset of an instance of a given capacity (10_state R27), with nothing in the run's lists. -/
def State.resetOf (capacity : Half) : State where
  status := 0x00#8
  ilen := 0#16
  olen := 0#16
  capr := capacity
  ibuf := []
  obuf := []
  rngData := 0x00#8
  rngValid := false
  answers := []
  draws := 0
  script := []
  outputs := []

/-- The machine right after reset (10_state R27; capacity: log entry 1). -/
def State.reset : State := State.resetOf Config.recommendedCap

end Sys2Proof.Machine
end

