-- ==== Sys2Proof/Machine/Flags.lean ====
section
/-! DEFINITION. STATUS: its fields (10_state R16, R24), the failure codes (60 R100) and the word the engine writes. -/

namespace Sys2Proof.Machine

/-- The five failures (60 R96 to R100). -/
inductive Failure where
  | invalidParameter
  | invalidPadding
  | entropySourceError
  | illegalCommand
  | capacityExceeded
deriving DecidableEq, Repr

/-- The code of a failure (60 R100). -/
def failureCode : Failure → BitVec 4
  | .invalidParameter => 1#4
  | .invalidPadding => 2#4
  | .entropySourceError => 3#4
  | .illegalCommand => 4#4
  | .capacityExceeded => 5#4

/-- STATUS from its fields: bits 7:5 are 0, bit 4 is DONE, bits 3:0 are ERR (10_state R16). -/
def statusOf (done : BitVec 1) (err : BitVec 4) : Byte := 0#3 ++ done ++ err

/-- STATUS.ERR. -/
def State.err (s : State) : BitVec 4 := s.status.extractLsb' 0 4

/-- STATUS.DONE. -/
def State.done (s : State) : BitVec 1 := s.status.extractLsb' 4 1

/-- STATUS[7:5]. -/
def State.statusReserved (s : State) : BitVec 3 := s.status.extractLsb' 5 3

/-- STATUS after a successful command: ERR 0, DONE 1 (60 R102). -/
def statusSuccess : Byte := statusOf 1#1 0#4

/-- STATUS after a failed command: ERR the code, DONE 1 (60 R101). -/
def statusFailure (f : Failure) : Byte := statusOf 1#1 (failureCode f)

/-- STATUS after reset and CLR: ERR 0, DONE 0 (10_state R27; 42 R87). -/
def statusClear : Byte := statusOf 0#1 0#4

end Sys2Proof.Machine
end

