-- ==== Sys2Proof/Machine/Ops.lean ====
section
/-! DEFINITION. The named operations: bytes of a buffer, writes of one register, the two ends of a command (60 R101,
R102), the entropy port and the output register (40_keygen R60, R61, R63). -/

namespace Sys2Proof.Machine

/-! ### Buffers -/

/-- What a buffer byte that nothing has written reads as: reset leaves every byte 0x00 (10_state R27). -/
def unlistedByte : Byte := 0x00#8

/-- The byte at an index. -/
def Memory.read : Memory → Nat → Byte
  | [], _ => unlistedByte
  | (a, b) :: rest, i => if a = i then b else Memory.read rest i

/-- One byte written, in canonical form: a byte equal to what an unlisted index reads as is not listed. -/
def Memory.write : Memory → Nat → Byte → Memory
  | [], i, v => if v = unlistedByte then [] else [(i, v)]
  | (a, b) :: rest, i, v =>
    if i < a then
      if v = unlistedByte then (a, b) :: rest else (i, v) :: (a, b) :: rest
    else if i = a then
      if v = unlistedByte then rest else (i, v) :: rest
    else (a, b) :: Memory.write rest i v

/-- The canonical form from an index on: indices strictly rising and not below it, no byte equal to an unlisted one. -/
def Memory.wfFrom : Nat → Memory → Bool
  | _, [] => true
  | low, (a, b) :: rest => decide (low ≤ a) && decide (b ≠ unlistedByte) && Memory.wfFrom (a + 1) rest

/-- The canonical form: equal buffers are equal lists. -/
def Memory.wf (m : Memory) : Bool := Memory.wfFrom 0 m

/-- Every listed index is below a bound. -/
def Memory.below (m : Memory) (bound : Nat) : Bool := m.all (fun c => decide (c.1 < bound))

/-- The sub-sequence of `n` bytes from an index on. -/
def Memory.readRange (m : Memory) (start : Nat) : Nat → List Byte
  | 0 => []
  | n + 1 => m.read start :: Memory.readRange m (start + 1) n

/-- The buffer that holds a sequence from an index on, and 0x00 everywhere else. -/
def Memory.ofBytesFrom : Nat → List Byte → Memory
  | _, [] => []
  | i, b :: rest =>
    if b = unlistedByte then Memory.ofBytesFrom (i + 1) rest else (i, b) :: Memory.ofBytesFrom (i + 1) rest

/-- The buffer formatter's whole write of OBUF (41_pkcs7 R73): the result from index 0 and 0x00 after it. -/
def Memory.ofBytes (r : List Byte) : Memory := Memory.ofBytesFrom 0 r

/-- A buffer every byte of which is 0x00. -/
def Memory.zero : Memory := []

/-! ### Writes of one piece of state -/

def State.setStatus (s : State) (v : Byte) : State := { s with status := v }
def State.setIlen (s : State) (v : Half) : State := { s with ilen := v }
def State.setOlen (s : State) (v : Half) : State := { s with olen := v }
def State.setIbuf (s : State) (m : Memory) : State := { s with ibuf := m }
def State.setObuf (s : State) (m : Memory) : State := { s with obuf := m }
/-- RNGOUT, both fields (10_state R21). -/
def State.setRngout (s : State) (data : Byte) (valid : Bool) : State := { s with rngData := data, rngValid := valid }
/-- The entropy source's side of a run, after a draw. -/
def State.setEntropy (s : State) (answers : List Draw) (draws : Nat) : State :=
  { s with answers := answers, draws := draws }
def State.setScript (s : State) (lines : List ScriptLine) : State := { s with script := lines }
def State.setOutputs (s : State) (vs : List ReadValue) : State := { s with outputs := vs }

/-- The parameter CAP as a number (00_scope R7). -/
def State.cap (s : State) : Nat := s.capr.toNat

/-! ### How a command ends -/

/-- `raise f`, the failure completion (60 R101). It is also what taking an exception is on this hardware (R96, R106):
nothing else is saved or changed. -/
def raise (f : Failure) (s : State) : State :=
  (((s.setObuf Memory.zero).setOlen 0#16).setRngout 0x00#8 false).setStatus (statusFailure f)

/-- `complete(r)`, the success completion (60 R102). -/
def complete (r : List Byte) (s : State) : State :=
  (((s.setObuf (Memory.ofBytes r)).setOlen (BitVec.ofNat 16 r.length)).setRngout 0x00#8 false).setStatus statusSuccess

/-- Every piece of the engine's state at its reset value (10_state R27), which is also what CLR leaves (42 R87). The
capacity is a constant (R22); the entropy source is not touched (70 R115); the run's lists are not the engine's. -/
def clearEngine (s : State) : State :=
  (((((s.setIbuf Memory.zero).setObuf Memory.zero).setIlen 0#16).setOlen 0#16).setStatus statusClear).setRngout 0x00#8
    false

/-! ### The entropy port -/

/-- `EntropyDraw()` (40_keygen R60): the next answer of the run's list or, past its end, a free value (log entry 2). -/
def entropyDraw (s : State) : Draw × State :=
  match s.answers with
  | a :: rest => (a, s.setEntropy rest (s.draws + 1))
  | [] => (Config.freeDraw s.draws, s.setEntropy [] (s.draws + 1))

/-- The answer the entropy source will give to the draw after `k` more draws. -/
def State.nthDraw (s : State) (k : Nat) : Draw :=
  match s.answers[k]? with
  | some a => a
  | none => Config.freeDraw (s.draws + k)

/-- `deliver(k, b)`, the output register protocol (40_keygen R61). -/
def deliver (k : Nat) (b : Byte) (s : State) : State :=
  let loaded := s.setRngout b true
  let moved := loaded.setObuf (loaded.obuf.write k loaded.rngData)
  moved.setRngout 0x00#8 false

/-- The loop of GENBYTES (40_keygen R63): `n` bytes from index `k` on, and whether every draw was answered. -/
def drawLoop : Nat → Nat → State → Bool × State
  | 0, _, s => (true, s)
  | n + 1, k, s =>
    match entropyDraw s with
    | (.unavailable, s') => (false, s')
    | (.byte b, s') => drawLoop n (k + 1) (deliver k b s')

/-- `GENBYTES(n)` (40_keygen R63). -/
def genBytes (n : Nat) (s : State) : State :=
  if s.cap < n then raise .capacityExceeded s
  else
    match drawLoop n 0 s with
    | (true, s') => complete (s'.obuf.readRange 0 n) s'
    | (false, s') => raise .entropySourceError s'

/-- A generation command once its operand is read: InvalidParameter for an operand outside its domain, else GENBYTES. -/
def generate (len : Option Nat) (s : State) : State :=
  match len with
  | none => raise .invalidParameter s
  | some n => genBytes n s

end Sys2Proof.Machine
end

