-- ==== Sys2Proof/Machine/Control.lean ====
section
/-! DEFINITION. The housekeeping command CLR (42_control_and_host R87). -/

namespace Sys2Proof.Machine

/-- CLR: "wipe arguments, result and status". -/
def execClr (s : State) : Host.Outcome State Fault Refusal := .next (clearEngine s)

end Sys2Proof.Machine
end

