-- ==== Sys2Proof/Machine/Operands.lean ====
section
/-! DEFINITION. The operands: what `imm` means under each command (30_encoding R48), `none` where its value is outside
the command's domain, and the input sequence IBUF[0..ILEN). -/

namespace Sys2Proof.Machine

/-- GEN: a positive length (40_keygen R64). -/
def genLength (imm : Half) : Option Nat := if imm.toNat = 0 then none else some imm.toNat

/-- KEYDES: no option; 8 bytes (40_keygen R65). -/
def desLength (imm : Half) : Option Nat := if imm = 0#16 then some 8 else none

/-- KEY3DES: option 1, 2, 3 gives 8, 16, 24 bytes (40_keygen R66). -/
def tripleDesLength (imm : Half) : Option Nat :=
  if imm = 1#16 then some 8
  else if imm = 2#16 then some 16
  else if imm = 3#16 then some 24
  else none

/-- KEYAES: 128, 192, 256 bits give 16, 24, 32 bytes (40_keygen R67). -/
def aesLength (imm : Half) : Option Nat :=
  if imm = 128#16 then some 16
  else if imm = 192#16 then some 24
  else if imm = 256#16 then some 32
  else none

/-- GENIV: a positive block size (40_keygen R68). -/
def ivLength (imm : Half) : Option Nat := if imm.toNat = 0 then none else some imm.toNat

/-- PAD: a block size from 1 to 255 (41_pkcs7 R76). -/
def padBlockSize (imm : Half) : Option Nat :=
  if imm.toNat = 0 ∨ 255 < imm.toNat then none else some imm.toNat

/-- The input sequence IBUF[0..ILEN) (10_state R17, R19). -/
def inputBytes (s : State) : List Byte := s.ibuf.readRange 0 s.ilen.toNat

/-- The block-boundary detector (41_pkcs7 R73, R76): how many bytes are missing to the next block boundary, a whole
block when the length is on one. -/
def padLength (blockSize len : Nat) : Nat := blockSize - len % blockSize

/-- The last byte of an input of length `len`, 0 for the empty input (41_pkcs7 R79). -/
def lastByte (m : Memory) (len : Nat) : Byte := if 1 ≤ len then m.read (len - 1) else 0x00#8

/-- The padding-byte checker (41_pkcs7 R73, R79): the three checks on an input of length `len`. -/
def paddingValid (m : Memory) (len : Nat) : Bool :=
  let n := (lastByte m len).toNat
  let c1 := decide (1 ≤ len)
  let c2 := c1 && decide (1 ≤ n) && decide (n ≤ len)
  c2 && (m.readRange (len - n) n).all (fun b => decide (b = lastByte m len))

end Sys2Proof.Machine
end

