-- ==== Sys2Proof/Machine/KeyGen.lean ====
section
/-! DEFINITION. The KeyMaterialGenerator's commands (40_keygen R64 to R69): one meaning each over `generate`. -/

namespace Sys2Proof.Machine

/-- GEN (R64). -/
def execGen (imm : Half) (s : State) : Host.Outcome State Fault Refusal := .next (generate (genLength imm) s)

/-- KEYDES (R65). -/
def execKeydes (imm : Half) (s : State) : Host.Outcome State Fault Refusal := .next (generate (desLength imm) s)

/-- KEY3DES (R66). -/
def execKey3des (imm : Half) (s : State) : Host.Outcome State Fault Refusal :=
  .next (generate (tripleDesLength imm) s)

/-- KEYAES (R67). -/
def execKeyaes (imm : Half) (s : State) : Host.Outcome State Fault Refusal := .next (generate (aesLength imm) s)

/-- GENIV (R68): "GENIV s and GEN s have the same effect". -/
def execGeniv (imm : Half) (s : State) : Host.Outcome State Fault Refusal := .next (generate (ivLength imm) s)

/-- GENKEY with an undefined class (R69): always InvalidParameter; neither operand is used (log entry 9). -/
def execGenkeyUndef (_cls : Byte) (_imm : Half) (s : State) : Host.Outcome State Fault Refusal :=
  .next (raise .invalidParameter s)

end Sys2Proof.Machine
end

