-- ==== Sys2Proof/Machine/Pkcs7.lean ====
section
/-! DEFINITION. The Pkcs7Padder's commands (41_pkcs7 R76, R79). -/

namespace Sys2Proof.Machine

/-- PAD for a legal block size (R76). -/
def padInput (blockSize : Nat) (s : State) : State :=
  let len := s.ilen.toNat
  let padLen := padLength blockSize len
  if s.cap < len then raise .capacityExceeded s
  else if s.cap < len + padLen then raise .capacityExceeded s
  else complete (inputBytes s ++ List.replicate padLen (BitVec.ofNat 8 padLen)) s

/-- PAD (R76), failures in order of test. -/
def padCommand (imm : Half) (s : State) : State :=
  match padBlockSize imm with
  | none => raise .invalidParameter s
  | some blockSize => padInput blockSize s

/-- PAD. -/
def execPad (imm : Half) (s : State) : Host.Outcome State Fault Refusal := .next (padCommand imm s)

/-- UNPAD (R79), failures in order of test. -/
def unpadCommand (s : State) : State :=
  let len := s.ilen.toNat
  if s.cap < len then raise .capacityExceeded s
  else if paddingValid s.ibuf len then
    complete (s.ibuf.readRange 0 (len - (lastByte s.ibuf len).toNat)) s
  else raise .invalidPadding s

/-- UNPAD. -/
def execUnpad (s : State) : Host.Outcome State Fault Refusal := .next (unpadCommand s)

end Sys2Proof.Machine
end

