-- ==== Sys2Proof/Machine/Dispatch.lean ====
section
/-! DEFINITION. One arm per command. -/

namespace Sys2Proof.Machine

def exec (i : Instr) (s : State) : Host.Outcome State Fault Refusal :=
  match i with
  | .gen imm => Sys2Proof.Machine.execGen imm s
  | .keydes imm => Sys2Proof.Machine.execKeydes imm s
  | .key3des imm => Sys2Proof.Machine.execKey3des imm s
  | .keyaes imm => Sys2Proof.Machine.execKeyaes imm s
  | .geniv imm => Sys2Proof.Machine.execGeniv imm s
  | .genkeyUndef cls imm => Sys2Proof.Machine.execGenkeyUndef cls imm s
  | .pad imm => Sys2Proof.Machine.execPad imm s
  | .unpad => Sys2Proof.Machine.execUnpad s
  | .clr => Sys2Proof.Machine.execClr s

end Sys2Proof.Machine
end

