-- ==== Sys2Proof/Machine/HostPort.lean ====
section
/-! DEFINITION. The host's side (20_memory R31, R38; 42_control_and_host R88 to R92): host accesses, the write of CMD that
executes a command, the pseudo-operations' expansions (30_encoding R58), the reset from outside (70 R113). -/

namespace Sys2Proof.Machine

/-- A read that returns a value: it changes nothing but the run's outputs (20_memory R36). -/
def returned (v : ReadValue) (s : State) : Host.Outcome State Fault Refusal := .next (s.setOutputs (s.outputs ++ [v]))

/-- A read of a register of `size` bytes, "at that width, never in part" (10_state R14). -/
def readRegister (size width : Nat) (v : ReadValue) (s : State) : Host.Outcome State Fault Refusal :=
  if width = size then returned v s else .refused .wrongWidth

/-- A read of one buffer byte (42 R91, R92). -/
def readBuffer (m : Memory) (index width : Nat) (s : State) : Host.Outcome State Fault Refusal :=
  if s.cap ≤ index then .refused .indexBeyondCapacity
  else if width = 1 then returned (.byte (m.read index)) s
  else .refused .wrongWidth

/-- `MemRead` (20_memory R31; registers by number, 10_state R14). -/
def hostRead (space : Space) (index width : Nat) (s : State) : Host.Outcome State Fault Refusal :=
  match space with
  | .reg =>
    match index with
    | 0 => .refused .readOfCmd
    | 1 => readRegister 1 width (.byte s.status) s
    | 2 => readRegister 2 width (.half s.ilen) s
    | 3 => readRegister 2 width (.half s.olen) s
    | 4 => readRegister 2 width (.half s.capr) s
    | _ => .refused .reservedRegister
  | .ibuf => readBuffer s.ibuf index width s
  | .obuf => readBuffer s.obuf index width s

/-- A write of CMD (42 R90; 30_encoding R46): the command is executed to its end; a word that is no command ends with
IllegalCommand (30_encoding R54). -/
def writeCmd (w : Word) (s : State) : Host.Outcome State Fault Refusal :=
  match decode w with
  | .command i => exec i s
  | .illegal _ => .next (raise .illegalCommand s)

/-- `MemWrite` (20_memory R31; 42 R89, R90, R91). -/
def hostWrite (space : Space) (index width value : Nat) (s : State) : Host.Outcome State Fault Refusal :=
  match space with
  | .reg =>
    match index with
    | 0 =>
      if width = 4 then
        if value < 2 ^ 32 then writeCmd (BitVec.ofNat 32 value) s else .refused .valueTooWide
      else .refused .wrongWidth
    | 1 => .refused .writeOfReadOnlyRegister
    | 2 =>
      if width = 2 then
        if value < 2 ^ 16 then .next (s.setIlen (BitVec.ofNat 16 value)) else .refused .valueTooWide
      else .refused .wrongWidth
    | 3 => .refused .writeOfReadOnlyRegister
    | 4 => .refused .writeOfReadOnlyRegister
    | _ => .refused .reservedRegister
  | .ibuf =>
    if s.cap ≤ index then .refused .indexBeyondCapacity
    else if width = 1 then
      if value < 2 ^ 8 then .next (s.setIbuf (s.ibuf.write index (BitVec.ofNat 8 value))) else .refused .valueTooWide
    else .refused .wrongWidth
  | .obuf => .refused .writeOfOutputBuffer

/-- One host access. -/
def performAccess (a : HostAccess) (s : State) : Host.Outcome State Fault Refusal :=
  match a with
  | .read space index width => hostRead space index width s
  | .write space index width value => hostWrite space index width value s

/-! ### Lines of a host script (30_encoding R57, R58) -/

def lineReadStatus : ScriptLine := .access (.read .reg 1 1)
def lineReadOlen : ScriptLine := .access (.read .reg 3 2)
def lineWriteIlen (v : Nat) : ScriptLine := .access (.write .reg 2 2 v)
def lineWriteCmd (w : Word) : ScriptLine := .access (.write .reg 0 4 w.toNat)
def lineWriteByte (i : Nat) (b : Byte) : ScriptLine := .access (.write .ibuf i 1 b.toNat)
def lineReadResult (i : Nat) : ScriptLine := .access (.read .obuf i 1)

/-- The byte writes of LOAD, from an index on. -/
def loadBytes : Nat → List Byte → List ScriptLine
  | _, [] => []
  | i, b :: rest => lineWriteByte i b :: loadBytes (i + 1) rest

/-- LOAD: the bytes, then ILEN (R58). -/
def expandLoad (bytes : List Byte) : List ScriptLine := loadBytes 0 bytes ++ [lineWriteIlen bytes.length]

/-- The reads of `n` result bytes from an index on. -/
def readoutBytes : Nat → Nat → List ScriptLine
  | _, 0 => []
  | i, n + 1 => lineReadResult i :: readoutBytes (i + 1) n

/-- READOUT: STATUS, OLEN (the value m), then m result bytes (R58). -/
def expandReadout (s : State) : List ScriptLine := lineReadStatus :: lineReadOlen :: readoutBytes 0 s.olen.toNat

/-- The reads and writes of COPYBACK for `n` bytes from an index on: each byte is written as it is read. -/
def copybackBytes (m : Memory) : Nat → Nat → List ScriptLine
  | _, 0 => []
  | i, n + 1 => lineReadResult i :: lineWriteByte i (m.read i) :: copybackBytes m (i + 1) n

/-- COPYBACK: the last result becomes the next input (R58; 42 R95). The values the host writes are those its reads return:
no line of the expansion changes OLEN or OBUF (log entry 5). -/
def expandCopyback (s : State) : List ScriptLine :=
  lineReadOlen :: (copybackBytes s.obuf 0 s.olen.toNat ++ [lineWriteIlen s.olen.toNat])

/-- One line, the rest of the script standing in the state. A pseudo-operation is replaced by its expansion and acts
through that alone (log entry 5). -/
def performLine (l : ScriptLine) (s : State) : Host.Outcome State Fault Refusal :=
  match l with
  | .access a => performAccess a s
  | .command i => writeCmd (encode i) s
  | .load bytes => .next (s.setScript (expandLoad bytes ++ s.script))
  | .readout => .next (s.setScript (expandReadout s ++ s.script))
  | .copyback => .next (s.setScript (expandCopyback s ++ s.script))
  | .reset => .next (clearEngine s)

/-- What happens next: the first line of the script; with none left the engine is quiescent (00_scope R6; 70 R128; log
entry 3). -/
def nextLine (s : State) : Host.Outcome State Fault Refusal :=
  match s.script with
  | [] => .next s
  | l :: rest => performLine l (s.setScript rest)

/-- The host is about to write a word to CMD. -/
def commandNext (w : Word) (s : State) : State := s.setScript (lineWriteCmd w :: s.script)

end Sys2Proof.Machine
end

