-- ==== Sys2Proof/Machine/Step.lean ====
section
/-! DEFINITION. One step: one line of the host's script (70 R128: "each line one step"). -/

namespace Sys2Proof.Machine

def step (s : State) : Host.Outcome State Fault Refusal := nextLine s

/-- The state in which the very next step writes this word to CMD. There is no fetch (10_state R23): a command reaches
the engine from the host, so its word is put at the head of the script (log entry 4). -/
def State.withFetchWord (s : State) (nbits w : Nat) : State := commandNext (BitVec.ofNat 32 (w % 2 ^ nbits)) s

end Sys2Proof.Machine
end

