-- ==== Sys2Proof/Safety.lean ====
section
/-! DEFINITION. The terms claims are stated in: the invariant of every state a host can observe (10_state R26), how a
command's end looks (60 R101, R102), what each generation command asks for (40_keygen R72), which accesses are reserved
(20_memory R38). -/

namespace Sys2Proof.Machine

/-- 10_state R26, clauses (a) to (f), with the legal range of CAP (00_scope R7) and the canonical form of the two buffers
(the model's own, log entry 8). Clause (g) is that CAPR never changes: it is no property of one state. -/
structure State.Inv (s : State) : Prop where
  capLow : Config.minCap ≤ s.cap
  /-- (a) -/
  olenLeCap : s.olen.toNat ≤ s.cap
  /-- (b) -/
  restZero : ∀ i, s.olen.toNat ≤ i → i < s.cap → s.obuf.read i = 0x00#8
  /-- (c) -/
  failEmpty : s.err ≠ 0#4 → s.olen = 0#16
  /-- (d), ERR -/
  errLegal : s.err.toNat ≤ 5
  /-- (d), reserved bits -/
  reservedZero : s.statusReserved = 0#3
  /-- (e) -/
  notDone : s.done = 0#1 → s.err = 0#4 ∧ s.olen = 0#16
  /-- (f) -/
  rngEmpty : s.rngData = 0x00#8 ∧ s.rngValid = false
  ibufForm : s.ibuf.wf = true ∧ s.ibuf.below s.cap = true
  obufForm : s.obuf.wf = true ∧ s.obuf.below s.cap = true

/-- What no command but CLR touches: the host's side of the engine and of the run, and the constant CAPR. RNGOUT is empty
at the end of every command (10_state R21). -/
structure InputsKept (s t : State) : Prop where
  ilen : t.ilen = s.ilen
  ibuf : t.ibuf = s.ibuf
  capr : t.capr = s.capr
  script : t.script = s.script
  outputs : t.outputs = s.outputs
  rngEmpty : t.rngData = 0x00#8 ∧ t.rngValid = false

/-- A command made exactly `n` draws (40_keygen R63). -/
structure MadeDraws (n : Nat) (s t : State) : Prop where
  answers : t.answers = s.answers.drop n
  draws : t.draws = s.draws + n

/-- A command ended by `complete(r)` (60 R102) after `n` draws, and changed nothing else. -/
structure SucceedsWith (r : List Byte) (n : Nat) (s t : State) : Prop where
  status : t.status = 0x10#8
  olen : t.olen.toNat = r.length
  result : ∀ i, t.obuf.read i = r.getD i 0x00#8
  form : t.obuf.wf = true
  kept : InputsKept s t
  drawn : MadeDraws n s t

/-- A command ended by `raise` (60 R101), STATUS then reading `status`, after `n` draws, and changed nothing else. -/
structure FailsWith (status : Byte) (n : Nat) (s t : State) : Prop where
  status : t.status = status
  olen : t.olen = 0#16
  result : ∀ i, t.obuf.read i = 0x00#8
  form : t.obuf.wf = true
  kept : InputsKept s t
  drawn : MadeDraws n s t

/-- The generation commands (00_scope R2; 40_keygen R62). GENKEY with an undefined class is none: it generates nothing. -/
def generates : Instr → Bool
  | .gen _ => true
  | .keydes _ => true
  | .key3des _ => true
  | .keyaes _ => true
  | .geniv _ => true
  | .genkeyUndef _ _ => false
  | .pad _ => false
  | .unpad => false
  | .clr => false

/-- The table of 40_keygen R72: command `i` asks for `n` bytes; nothing where the operand is outside the table. The bound
CAP on GEN and GENIV is not part of it. -/
inductive Requests : Instr → Nat → Prop where
  | gen (imm : Half) : 1 ≤ imm.toNat → Requests (.gen imm) imm.toNat
  | keydes : Requests (.keydes 0#16) 8
  | key3des1 : Requests (.key3des 1#16) 8
  | key3des2 : Requests (.key3des 2#16) 16
  | key3des3 : Requests (.key3des 3#16) 24
  | keyaes128 : Requests (.keyaes 128#16) 16
  | keyaes192 : Requests (.keyaes 192#16) 24
  | keyaes256 : Requests (.keyaes 256#16) 32
  | geniv (imm : Half) : 1 ≤ imm.toNat → Requests (.geniv imm) imm.toNat

/-- The words that are no command (30_encoding R54). -/
def IllegalCommandWord (w : Word) : Prop :=
  (opcOf w ≠ 0x01#8 ∧ opcOf w ≠ 0x02#8 ∧ opcOf w ≠ 0x10#8 ∧ opcOf w ≠ 0x11#8 ∧ opcOf w ≠ 0x20#8) ∨
  (opcOf w ∈ [0x01#8, 0x10#8, 0x11#8, 0x20#8] ∧ clsOf w ≠ 0#8) ∨
  (opcOf w ∈ [0x11#8, 0x20#8] ∧ immOf w ≠ 0#16)

/-- Decoding refuses the word, and writing it to CMD ends with IllegalCommand whatever the state, with no draw (30_encoding
R54). -/
def EndsWithIllegalCommand (w : Word) : Prop :=
  (∃ why, decode w = .illegal why) ∧
    ∀ s : State, ∃ t, performAccess (.write .reg 0 4 w.toNat) s = .next t ∧ FailsWith 0x14#8 0 s t

/-- The three checks of UNPAD hold of the first `len` bytes of a buffer (41_pkcs7 R79): the input is not empty, its last
byte N is from 1 to the length, and its last N bytes all equal N. -/
def ValidPadding (m : Memory) (len : Nat) : Prop :=
  1 ≤ len ∧ 1 ≤ (m.read (len - 1)).toNat ∧ (m.read (len - 1)).toNat ≤ len ∧
    ∀ j, len - (m.read (len - 1)).toNat ≤ j → j ≤ len - 1 → m.read j = m.read (len - 1)

/-- The first `len` bytes of a buffer are a PaddedBuffer for a block size (41_pkcs7 R74). -/
def IsPaddedBuffer (blockSize : Nat) (m : Memory) (len : Nat) : Prop :=
  1 ≤ blockSize ∧ blockSize ≤ 255 ∧ 1 ≤ len ∧ len % blockSize = 0 ∧
    1 ≤ (m.read (len - 1)).toNat ∧ (m.read (len - 1)).toNat ≤ blockSize ∧
    ∀ j, len - (m.read (len - 1)).toNat ≤ j → j ≤ len - 1 → m.read j = m.read (len - 1)

/-- The operand is outside the command's domain (30_encoding R48; 60 R97). -/
def OutOfDomain : Instr → Prop
  | .gen imm => imm = 0#16
  | .keydes imm => imm ≠ 0#16
  | .key3des imm => imm ≠ 1#16 ∧ imm ≠ 2#16 ∧ imm ≠ 3#16
  | .keyaes imm => imm ≠ 128#16 ∧ imm ≠ 192#16 ∧ imm ≠ 256#16
  | .geniv imm => imm = 0#16
  | .genkeyUndef _ _ => True
  | .pad imm => imm = 0#16 ∨ 255 < imm.toNat
  | .unpad => False
  | .clr => False

/-- A generation command asks for more bytes than OBUF holds (40_keygen R63). -/
def RequestBeyond (s : State) (i : Instr) : Prop := ∃ n, Requests i n ∧ s.cap < n

/-- A length of the command does not fit the buffers (60 R100, code 5): what a generation command asks for, the input of
PAD or UNPAD, the result of PAD. -/
def BeyondCapacity (s : State) : Instr → Prop
  | .gen imm => RequestBeyond s (.gen imm)
  | .keydes imm => RequestBeyond s (.keydes imm)
  | .key3des imm => RequestBeyond s (.key3des imm)
  | .keyaes imm => RequestBeyond s (.keyaes imm)
  | .geniv imm => RequestBeyond s (.geniv imm)
  | .genkeyUndef _ _ => False
  | .pad imm => s.cap < s.ilen.toNat ∨ s.cap < s.ilen.toNat + (imm.toNat - s.ilen.toNat % imm.toNat)
  | .unpad => s.cap < s.ilen.toNat
  | .clr => False

/-- The width in bytes of the registers the host may read, by number, and of those it may write (10_state R14). -/
def readWidth : Nat → Option Nat
  | 1 => some 1
  | 2 => some 2
  | 3 => some 2
  | 4 => some 2
  | _ => none

def writeWidth : Nat → Option Nat
  | 0 => some 4
  | 2 => some 2
  | _ => none

/-- The reserved accesses, clause by clause (20_memory R38). -/
inductive Reserved (cap : Nat) : HostAccess → Prop where
  /-- (a) -/
  | readOfCmd (width : Nat) : Reserved cap (.read .reg 0 width)
  /-- (b) -/
  | writeOfStatus (width value : Nat) : Reserved cap (.write .reg 1 width value)
  | writeOfOlen (width value : Nat) : Reserved cap (.write .reg 3 width value)
  | writeOfCapr (width value : Nat) : Reserved cap (.write .reg 4 width value)
  /-- (c) -/
  | readOfRegister (n width : Nat) : 5 ≤ n → Reserved cap (.read .reg n width)
  | writeOfRegister (n width value : Nat) : 5 ≤ n → Reserved cap (.write .reg n width value)
  /-- (d) -/
  | readBeyond (space : Space) (i width : Nat) : space ≠ .reg → cap ≤ i → Reserved cap (.read space i width)
  | writeBeyond (space : Space) (i width value : Nat) :
      space ≠ .reg → cap ≤ i → Reserved cap (.write space i width value)
  /-- (e) -/
  | writeOfObuf (i width value : Nat) : Reserved cap (.write .obuf i width value)
  /-- (f) -/
  | readWidthOfRegister (n size width : Nat) : readWidth n = some size → width ≠ size → Reserved cap (.read .reg n width)
  | writeWidthOfRegister (n size width value : Nat) :
      writeWidth n = some size → width ≠ size → Reserved cap (.write .reg n width value)
  | readWidthOfByte (space : Space) (i width : Nat) : space ≠ .reg → width ≠ 1 → Reserved cap (.read space i width)
  | writeWidthOfByte (space : Space) (i width value : Nat) :
      space ≠ .reg → width ≠ 1 → Reserved cap (.write space i width value)
  /-- (g); a command word wider than CMD is of this kind too -/
  | valueOfRegister (n size width value : Nat) :
      writeWidth n = some size → 2 ^ (8 * size) ≤ value → Reserved cap (.write .reg n width value)
  | valueOfByte (i width value : Nat) : 2 ^ 8 ≤ value → Reserved cap (.write .ibuf i width value)

end Sys2Proof.Machine
end

