-- ==== Sys2Proof/Certificates/Slice0/Obligations.lean ====
section
/-! DEFINITION. The statements for the provers. Each docstring names the rules of spec/ it formalises. -/

open Sys2Proof Sys2Proof.Machine

/-! ### Encoding -/

/-- 30_encoding R47, R51: decoding the word of a well-formed command gives the command back, for every value of every
operand. -/
def Obligations.DecodeOfEncodeGivesTheCommandBack : Prop :=
  ∀ i : Instr, i.wellFormed = true → decode (encode i) = .command i

/-- 30_encoding R47, R51: a word that decodes to a command is that command's word, and the command is well formed. -/
def Obligations.DecodedCommandEncodesToItsWord : Prop :=
  ∀ (w : Word) (i : Instr), decode w = .command i → i.wellFormed = true ∧ encode i = w

/-- 30_encoding R52: the first row of the match and mask table that a word selects names the command the procedure of R51
decodes it to; a word that selects no row is no command; row 6 is reached only by a class of 4 or more. -/
def Obligations.FirstMatchingRowNamesTheCommand : Prop :=
  ∀ w : Word, firstMatch w = (decode w).mnemonic? ∧
    (firstMatch w = some "GENKEY.UNDEF" → 4 ≤ (clsOf w).toNat)

/-- 30_encoding R54: the illegal words are exactly those decoding refuses, and writing one ends with IllegalCommand. -/
def Obligations.IllegalWordsEndWithIllegalCommand : Prop :=
  (∀ (w : Word) (s : State), IllegalCommandWord w →
    ∃ t, performAccess (.write .reg 0 4 w.toNat) s = .next t ∧ FailsWith 0x14#8 0 s t) ∧
  (∀ w : Word, IllegalCommandWord w ↔ ∃ why, decode w = .illegal why) ∧
  IllegalCommandWord 0x00000000#32 ∧ IllegalCommandWord 0xFFFFFFFF#32

/-- 30_encoding R59: the words of the source's calls, and two of 40_keygen R69. -/
def Obligations.CommandWordsOfTheSourcesCalls : Prop :=
  decode 0x02000000#32 = .command (.keydes 0#16) ∧
  decode 0x02010001#32 = .command (.key3des 1#16) ∧
  decode 0x02010002#32 = .command (.key3des 2#16) ∧
  decode 0x02010003#32 = .command (.key3des 3#16) ∧
  decode 0x02020080#32 = .command (.keyaes 128#16) ∧
  decode 0x020200C0#32 = .command (.keyaes 192#16) ∧
  decode 0x02020100#32 = .command (.keyaes 256#16) ∧
  decode 0x02030008#32 = .command (.geniv 8#16) ∧
  decode 0x02030010#32 = .command (.geniv 16#16) ∧
  decode 0x01000020#32 = .command (.gen 32#16) ∧
  decode 0x10000008#32 = .command (.pad 8#16) ∧
  decode 0x10000010#32 = .command (.pad 16#16) ∧
  decode 0x100000FF#32 = .command (.pad 255#16) ∧
  decode 0x11000000#32 = .command .unpad ∧
  decode 0x20000000#32 = .command .clr ∧
  decode 0x02040000#32 = .command (.genkeyUndef 4#8 0#16) ∧
  decode 0x02FF0010#32 = .command (.genkeyUndef 0xFF#8 16#16)

/-! ### Steps -/

/-- 30_encoding R46, R57; 42 R90: a step whose line writes the word of a command to CMD, or is the command's mnemonic, is
`exec` of the command, the line taken off the script. The script in the state is the model's (log entry 3). -/
def Obligations.StepRunsTheDecodedCommand : Prop :=
  ∀ (i : Instr) (s : State),
    (∀ (w : Word) (rest : List ScriptLine), decode w = .command i →
      s.script = .access (.write .reg 0 4 w.toNat) :: rest → step s = exec i { s with script := rest }) ∧
    (∀ rest : List ScriptLine, i.wellFormed = true →
      s.script = .command i :: rest → step s = exec i { s with script := rest }) ∧
    (∀ w : Word, decode w = .command i → step (s.withFetchWord 32 w.toNat) = exec i s)

/-- 00_scope R6, 70 R128: with no line left the engine takes no step of its own (log entry 3). -/
def Obligations.QuiescentWhenTheScriptIsAtItsEnd : Prop :=
  ∀ s : State, s.script = [] → step s = .next s

/-- 20_memory R31, R38; 93 section 1: a step answers a next state unless its line is a reserved access, and then it is
refused. -/
def Obligations.StepAnswersNextUnlessReserved : Prop :=
  ∀ s : State,
    (∃ t, step s = .next t) ↔ ¬ ∃ a rest, s.script = .access a :: rest ∧ Reserved s.cap a

/-! ### Key-material generation -/

/-- 40_keygen R64: GEN. -/
def Obligations.GenRule : Prop :=
  (∀ (imm : Half) (bs : List Byte) (s : State), s.obuf.wf = true → 1 ≤ imm.toNat → imm.toNat ≤ s.cap →
    bs.length = imm.toNat → (∀ k (h : k < bs.length), s.nthDraw k = .byte bs[k]) →
    ∃ t, exec (.gen imm) s = .next t ∧ SucceedsWith bs imm.toNat s t) ∧
  (∀ s : State, ∃ t, exec (.gen 0#16) s = .next t ∧ FailsWith 0x11#8 0 s t) ∧
  (∀ (imm : Half) (s : State), s.cap < imm.toNat →
    ∃ t, exec (.gen imm) s = .next t ∧ FailsWith 0x15#8 0 s t) ∧
  (∀ (imm : Half) (k : Nat) (s : State), imm.toNat ≤ s.cap → k < imm.toNat →
    (∀ j, j < k → ∃ b, s.nthDraw j = .byte b) → s.nthDraw k = .unavailable →
    ∃ t, exec (.gen imm) s = .next t ∧ FailsWith 0x13#8 (k + 1) s t) ∧
  (∀ w : Word, opcOf w = 0x01#8 →
    (clsOf w = 0#8 → decode w = .command (.gen (immOf w))) ∧ (clsOf w ≠ 0#8 → EndsWithIllegalCommand w))

/-- 40_keygen R65: KEYDES. CapacityExceeded cannot occur, CAP being 255 or more. -/
def Obligations.KeydesRule : Prop :=
  (∀ (bs : List Byte) (s : State), s.obuf.wf = true → Config.minCap ≤ s.cap → bs.length = 8 →
    (∀ k (h : k < bs.length), s.nthDraw k = .byte bs[k]) →
    ∃ t, exec (.keydes 0#16) s = .next t ∧ SucceedsWith bs 8 s t) ∧
  (∀ (imm : Half) (s : State), imm ≠ 0#16 → ∃ t, exec (.keydes imm) s = .next t ∧ FailsWith 0x11#8 0 s t) ∧
  (∀ (k : Nat) (s : State), Config.minCap ≤ s.cap → k < 8 →
    (∀ j, j < k → ∃ b, s.nthDraw j = .byte b) → s.nthDraw k = .unavailable →
    ∃ t, exec (.keydes 0#16) s = .next t ∧ FailsWith 0x13#8 (k + 1) s t) ∧
  (∀ w : Word, opcOf w = 0x02#8 → clsOf w = 0x00#8 → decode w = .command (.keydes (immOf w)))

/-- 40_keygen R66: KEY3DES, option 1 the shortest key and option 3 the longest. -/
def Obligations.Key3desRule : Prop :=
  (∀ (imm : Half) (n : Nat) (bs : List Byte) (s : State), s.obuf.wf = true → Config.minCap ≤ s.cap →
    (imm, n) ∈ [(1#16, 8), (2#16, 16), (3#16, 24)] → bs.length = n →
    (∀ k (h : k < bs.length), s.nthDraw k = .byte bs[k]) →
    ∃ t, exec (.key3des imm) s = .next t ∧ SucceedsWith bs n s t) ∧
  (∀ (imm : Half) (s : State), imm ≠ 1#16 → imm ≠ 2#16 → imm ≠ 3#16 →
    ∃ t, exec (.key3des imm) s = .next t ∧ FailsWith 0x11#8 0 s t) ∧
  (∀ (imm : Half) (n k : Nat) (s : State), Config.minCap ≤ s.cap →
    (imm, n) ∈ [(1#16, 8), (2#16, 16), (3#16, 24)] → k < n →
    (∀ j, j < k → ∃ b, s.nthDraw j = .byte b) → s.nthDraw k = .unavailable →
    ∃ t, exec (.key3des imm) s = .next t ∧ FailsWith 0x13#8 (k + 1) s t) ∧
  (∀ w : Word, opcOf w = 0x02#8 → clsOf w = 0x01#8 → decode w = .command (.key3des (immOf w)))

/-- 40_keygen R67: KEYAES, the operand in bits. -/
def Obligations.KeyaesRule : Prop :=
  (∀ (imm : Half) (n : Nat) (bs : List Byte) (s : State), s.obuf.wf = true → Config.minCap ≤ s.cap →
    (imm, n) ∈ [(128#16, 16), (192#16, 24), (256#16, 32)] → bs.length = n →
    (∀ k (h : k < bs.length), s.nthDraw k = .byte bs[k]) →
    ∃ t, exec (.keyaes imm) s = .next t ∧ SucceedsWith bs n s t) ∧
  (∀ (imm : Half) (s : State), imm ≠ 128#16 → imm ≠ 192#16 → imm ≠ 256#16 →
    ∃ t, exec (.keyaes imm) s = .next t ∧ FailsWith 0x11#8 0 s t) ∧
  (∀ (imm : Half) (n k : Nat) (s : State), Config.minCap ≤ s.cap →
    (imm, n) ∈ [(128#16, 16), (192#16, 24), (256#16, 32)] → k < n →
    (∀ j, j < k → ∃ b, s.nthDraw j = .byte b) → s.nthDraw k = .unavailable →
    ∃ t, exec (.keyaes imm) s = .next t ∧ FailsWith 0x13#8 (k + 1) s t) ∧
  (∀ w : Word, opcOf w = 0x02#8 → clsOf w = 0x02#8 → decode w = .command (.keyaes (immOf w)))

/-- 40_keygen R68: GENIV. The block size is bounded by CAP only, and GENIV s has the effect of GEN s. -/
def Obligations.GenivRule : Prop :=
  (∀ (imm : Half) (bs : List Byte) (s : State), s.obuf.wf = true → 1 ≤ imm.toNat → imm.toNat ≤ s.cap →
    bs.length = imm.toNat → (∀ k (h : k < bs.length), s.nthDraw k = .byte bs[k]) →
    ∃ t, exec (.geniv imm) s = .next t ∧ SucceedsWith bs imm.toNat s t) ∧
  (∀ s : State, ∃ t, exec (.geniv 0#16) s = .next t ∧ FailsWith 0x11#8 0 s t) ∧
  (∀ (imm : Half) (s : State), s.cap < imm.toNat →
    ∃ t, exec (.geniv imm) s = .next t ∧ FailsWith 0x15#8 0 s t) ∧
  (∀ (imm : Half) (k : Nat) (s : State), imm.toNat ≤ s.cap → k < imm.toNat →
    (∀ j, j < k → ∃ b, s.nthDraw j = .byte b) → s.nthDraw k = .unavailable →
    ∃ t, exec (.geniv imm) s = .next t ∧ FailsWith 0x13#8 (k + 1) s t) ∧
  (∀ (imm : Half) (s : State), exec (.geniv imm) s = exec (.gen imm) s) ∧
  (∀ w : Word, opcOf w = 0x02#8 → clsOf w = 0x03#8 → decode w = .command (.geniv (immOf w)))

/-- 40_keygen R69: a GENKEY word with a class of 4 or more always fails with InvalidParameter, and makes no draw. -/
def Obligations.GenkeyUndefinedClassFails : Prop :=
  (∀ (cls : Byte) (imm : Half) (s : State), 4 ≤ cls.toNat →
    ∃ t, exec (.genkeyUndef cls imm) s = .next t ∧ FailsWith 0x11#8 0 s t) ∧
  (∀ w : Word, opcOf w = 0x02#8 → 4 ≤ (clsOf w).toNat →
    decode w = .command (.genkeyUndef (clsOf w) (immOf w)))

/-- 40_keygen R72: on success OLEN is the value of the table and so is the number of draws; on failure OLEN is 0. -/
def Obligations.GeneratedLengthsAreThoseOfTheTable : Prop :=
  ∀ (i : Instr) (s t : State), generates i = true → exec i s = .next t →
    (t.err = 0#4 → ∃ n, Requests i n ∧ n ≤ s.cap ∧ t.olen.toNat = n ∧ t.draws = s.draws + n) ∧
    (t.err ≠ 0#4 → t.olen = 0#16)

/-- 40_keygen R61: a drawn byte goes through RNGOUT to exactly one byte of OBUF, and RNGOUT is empty after it. -/
def Obligations.OutputRegisterDeliversOneByte : Prop :=
  ∀ (k : Nat) (b : Byte) (s : State), s.obuf.wf = true →
    (∀ j, (deliver k b s).obuf.read j = if j = k then b else s.obuf.read j) ∧
    (deliver k b s).obuf.wf = true ∧
    (deliver k b s).rngData = 0x00#8 ∧ (deliver k b s).rngValid = false ∧
    deliver k b s = { s with obuf := (deliver k b s).obuf, rngData := 0x00#8, rngValid := false }

/-- 40_keygen R71, R60: two KEYDES may draw the same eight bytes; no rule says that two keys differ. -/
def Obligations.TheSameKeyTwiceIsAdmitted : Prop :=
  ∀ (bs : List Byte) (rest : List Draw) (s : State), s.obuf.wf = true → Config.minCap ≤ s.cap → bs.length = 8 →
    s.answers = bs.map Draw.byte ++ (bs.map Draw.byte ++ rest) →
    ∃ t u, exec (.keydes 0#16) s = .next t ∧ exec (.keydes 0#16) t = .next u ∧
      t.olen = 8#16 ∧ u.olen = 8#16 ∧ u.obuf = t.obuf ∧ (∀ k (h : k < bs.length), u.obuf.read k = bs[k]) ∧
      u.answers = rest

/-- 20_memory R45; 40_keygen R61; 41_pkcs7 R75: only the five generation commands draw, each at most as often as its
table entry, and none draws with its operand or its length refused. -/
def Obligations.OnlyGenerationCommandsDraw : Prop :=
  ∀ (i : Instr) (s t : State), exec i s = .next t →
    ∃ n, MadeDraws n s t ∧
      (n ≠ 0 → generates i = true ∧ ∃ m, Requests i m ∧ m ≤ s.cap ∧ n ≤ m)

/-! ### PAD and UNPAD -/

/-- 41_pkcs7 R76: PAD. -/
def Obligations.PadRule : Prop :=
  (∀ (imm : Half) (s : State), 1 ≤ imm.toNat → imm.toNat ≤ 255 →
    s.ilen.toNat + (imm.toNat - s.ilen.toNat % imm.toNat) ≤ s.cap →
    ∃ t, exec (.pad imm) s = .next t ∧ t.status = 0x10#8 ∧
      t.olen.toNat = s.ilen.toNat + (imm.toNat - s.ilen.toNat % imm.toNat) ∧
      (∀ i, t.obuf.read i =
        if i < s.ilen.toNat then s.ibuf.read i
        else if i < s.ilen.toNat + (imm.toNat - s.ilen.toNat % imm.toNat) then
          BitVec.ofNat 8 (imm.toNat - s.ilen.toNat % imm.toNat)
        else 0x00#8) ∧
      t.obuf.wf = true ∧ InputsKept s t ∧ MadeDraws 0 s t) ∧
  (∀ (imm : Half) (s : State), imm.toNat = 0 ∨ 255 < imm.toNat →
    ∃ t, exec (.pad imm) s = .next t ∧ FailsWith 0x11#8 0 s t) ∧
  (∀ (imm : Half) (s : State), 1 ≤ imm.toNat → imm.toNat ≤ 255 →
    s.cap < s.ilen.toNat ∨ s.cap < s.ilen.toNat + (imm.toNat - s.ilen.toNat % imm.toNat) →
    ∃ t, exec (.pad imm) s = .next t ∧ FailsWith 0x15#8 0 s t) ∧
  (∀ w : Word, opcOf w = 0x10#8 →
    (clsOf w = 0#8 → decode w = .command (.pad (immOf w))) ∧ (clsOf w ≠ 0#8 → EndsWithIllegalCommand w))

/-- 41_pkcs7 R77, (a) to (g): the laws of a successful PAD. -/
def Obligations.PadLaws : Prop :=
  ∀ (imm : Half) (s t : State), exec (.pad imm) s = .next t → t.err = 0#4 →
    t.olen.toNat % imm.toNat = 0 ∧ s.ilen.toNat < t.olen.toNat ∧
    1 ≤ t.olen.toNat - s.ilen.toNat ∧ t.olen.toNat - s.ilen.toNat ≤ imm.toNat ∧
    (s.ilen.toNat % imm.toNat = 0 → t.olen.toNat - s.ilen.toNat = imm.toNat) ∧
    (∀ i, s.ilen.toNat ≤ i → i < t.olen.toNat → (t.obuf.read i).toNat = t.olen.toNat - s.ilen.toNat) ∧
    (∀ i, i < s.ilen.toNat → t.obuf.read i = s.ibuf.read i) ∧
    IsPaddedBuffer imm.toNat t.obuf t.olen.toNat ∧
    t.olen.toNat = (s.ilen.toNat / imm.toNat + 1) * imm.toNat

/-- 41_pkcs7 R78: when PAD succeeds, the condition that does not mention the block size, and the largest length. -/
def Obligations.PadSucceedsExactlyWhenTheResultFits : Prop :=
  ∀ (imm : Half) (s : State), ∃ t, exec (.pad imm) s = .next t ∧
    (t.status = 0x10#8 ↔
      1 ≤ imm.toNat ∧ imm.toNat ≤ 255 ∧ (s.ilen.toNat / imm.toNat + 1) * imm.toNat ≤ s.cap) ∧
    (1 ≤ imm.toNat → imm.toNat ≤ 255 → s.ilen.toNat + 255 ≤ s.cap → t.status = 0x10#8) ∧
    (1 ≤ imm.toNat → imm.toNat ≤ 255 → (t.status = 0x10#8 ↔ s.ilen.toNat < s.cap / imm.toNat * imm.toNat))

/-- 41_pkcs7 R79: UNPAD. -/
def Obligations.UnpadRule : Prop :=
  (∀ s : State, s.ilen.toNat ≤ s.cap → ValidPadding s.ibuf s.ilen.toNat →
    ∃ t, exec .unpad s = .next t ∧ t.status = 0x10#8 ∧
      t.olen.toNat = s.ilen.toNat - (s.ibuf.read (s.ilen.toNat - 1)).toNat ∧
      (∀ i, t.obuf.read i =
        if i < s.ilen.toNat - (s.ibuf.read (s.ilen.toNat - 1)).toNat then s.ibuf.read i else 0x00#8) ∧
      t.obuf.wf = true ∧ InputsKept s t ∧ MadeDraws 0 s t) ∧
  (∀ s : State, s.cap < s.ilen.toNat → ∃ t, exec .unpad s = .next t ∧ FailsWith 0x15#8 0 s t) ∧
  (∀ s : State, s.ilen.toNat ≤ s.cap → ¬ ValidPadding s.ibuf s.ilen.toNat →
    ∃ t, exec .unpad s = .next t ∧ FailsWith 0x12#8 0 s t) ∧
  (∀ w : Word, opcOf w = 0x11#8 →
    (clsOf w = 0#8 → immOf w = 0#16 → decode w = .command .unpad) ∧
    (clsOf w ≠ 0#8 ∨ immOf w ≠ 0#16 → EndsWithIllegalCommand w))

/-- 41_pkcs7 R80: whichever check fails, UNPAD leaves ERR 2, DONE 1, OLEN 0 and OBUF all zero, and one and the same engine
apart from the inputs. -/
def Obligations.UnpadFailsOneWay : Prop :=
  ∀ s s' : State, s.ilen.toNat ≤ s.cap → s'.ilen.toNat ≤ s'.cap →
    ¬ ValidPadding s.ibuf s.ilen.toNat → ¬ ValidPadding s'.ibuf s'.ilen.toNat →
    ∃ t t', exec .unpad s = .next t ∧ exec .unpad s' = .next t' ∧
      t.err = 2#4 ∧ t.done = 1#1 ∧ t.olen = 0#16 ∧ (∀ i, t.obuf.read i = 0x00#8) ∧
      t.status = t'.status ∧ t.olen = t'.olen ∧ t.obuf = t'.obuf ∧
      t.rngData = t'.rngData ∧ t.rngValid = t'.rngValid ∧
      t.ilen = s.ilen ∧ t.ibuf = s.ibuf ∧ t'.ilen = s'.ilen ∧ t'.ibuf = s'.ibuf

/-- 41_pkcs7 R82, with R79 and R74: UNPAD accepts 255 bytes 00 and two bytes 02, which are a PaddedBuffer for no block size. -/
def Obligations.UnpadKnowsNoBlockSize : Prop :=
  ∀ s : State, s.ilen = 257#16 → 257 ≤ s.cap →
    (∀ i, i < 255 → s.ibuf.read i = 0x00#8) → s.ibuf.read 255 = 0x02#8 → s.ibuf.read 256 = 0x02#8 →
    (∃ t, exec .unpad s = .next t ∧ t.status = 0x10#8 ∧ t.olen = 255#16 ∧ ∀ i, t.obuf.read i = 0x00#8) ∧
    ∀ blockSize, ¬ IsPaddedBuffer blockSize s.ibuf 257

/-- 41_pkcs7 R83: UNPAD of a copy of what PAD left gives the data back. -/
def Obligations.UnpadInvertsPad : Prop :=
  ∀ (imm : Half) (s t u : State), exec (.pad imm) s = .next t → t.err = 0#4 →
    u.capr = s.capr → u.ilen = t.olen → (∀ i, i < t.olen.toNat → u.ibuf.read i = t.obuf.read i) →
    ∃ v, exec .unpad u = .next v ∧ v.status = 0x10#8 ∧ v.olen = s.ilen ∧
      ∀ i, i < s.ilen.toNat → v.obuf.read i = s.ibuf.read i

/-- 41_pkcs7 R84: PAD of what UNPAD leaves of a PaddedBuffer gives that buffer back. -/
def Obligations.PadInvertsUnpadOnPaddedBuffers : Prop :=
  ∀ (imm : Half) (s : State), s.ilen.toNat ≤ s.cap → IsPaddedBuffer imm.toNat s.ibuf s.ilen.toNat →
    ∃ t, exec .unpad s = .next t ∧ t.status = 0x10#8 ∧
      ∀ u : State, u.capr = s.capr → u.ilen = t.olen → (∀ i, i < t.olen.toNat → u.ibuf.read i = t.obuf.read i) →
        ∃ v, exec (.pad imm) u = .next v ∧ v.status = 0x10#8 ∧ v.olen = s.ilen ∧
          ∀ i, i < s.ilen.toNat → v.obuf.read i = s.ibuf.read i

/-! ### CLR and reset -/

/-- 42 R87: CLR leaves every piece of the engine's state at its reset value, CAPR as it is, and the run's lists alone. -/
def Obligations.ClrRule : Prop :=
  (∀ s : State, ∃ t, exec .clr s = .next t ∧
    t.status = 0x00#8 ∧ t.ilen = 0#16 ∧ t.olen = 0#16 ∧ t.rngData = 0x00#8 ∧ t.rngValid = false ∧
    (∀ i, t.ibuf.read i = 0x00#8) ∧ (∀ i, t.obuf.read i = 0x00#8) ∧ t.capr = s.capr ∧
    t = { State.resetOf s.capr with
      answers := s.answers, draws := s.draws, script := s.script, outputs := s.outputs }) ∧
  (∀ w : Word, opcOf w = 0x20#8 →
    (clsOf w = 0#8 → immOf w = 0#16 → decode w = .command .clr) ∧
    (clsOf w ≠ 0#8 ∨ immOf w ≠ 0#16 → EndsWithIllegalCommand w))

/-- 10_state R27, 70 R113, R115: what reset leaves, whatever was before; the entropy source is not touched, and the run's
lists are not the engine's (log entry 7). -/
def Obligations.ResetLeavesTheResetValues : Prop :=
  ∀ (s : State) (rest : List ScriptLine), s.script = .reset :: rest →
    ∃ t, step s = .next t ∧
      t.status = 0x00#8 ∧ t.ilen = 0#16 ∧ t.olen = 0#16 ∧ t.rngData = 0x00#8 ∧ t.rngValid = false ∧
      (∀ i, t.ibuf.read i = 0x00#8) ∧ (∀ i, t.obuf.read i = 0x00#8) ∧ t.capr = s.capr ∧
      t.answers = s.answers ∧ t.draws = s.draws ∧ t.script = rest ∧ t.outputs = s.outputs

/-! ### Failures -/

/-- 60 R97: a decoded command ends with InvalidParameter exactly when its operand is outside its domain, and then draws
nothing. -/
def Obligations.InvalidParameterExactlyOutOfDomain : Prop :=
  ∀ (i : Instr) (s : State), ∃ t, exec i s = .next t ∧ (t.err = 1#4 ↔ OutOfDomain i) ∧
    (OutOfDomain i → FailsWith 0x11#8 0 s t)

/-- 60 R98: a command ends with InvalidPadding exactly when it is UNPAD and one of its three checks fails. -/
def Obligations.InvalidPaddingExactlyWhenACheckFails : Prop :=
  ∀ (i : Instr) (s : State), ∃ t, exec i s = .next t ∧
    (t.err = 2#4 ↔ i = .unpad ∧ s.ilen.toNat ≤ s.cap ∧ ¬ ValidPadding s.ibuf s.ilen.toNat) ∧
    (t.err = 2#4 → FailsWith 0x12#8 0 s t)

/-- 60 R99: a command ends with EntropySourceError exactly when a draw it needs is not answered, at the first such draw
and with no further one. -/
def Obligations.EntropySourceErrorExactlyWhenUnanswered : Prop :=
  ∀ (i : Instr) (s : State), ∃ t, exec i s = .next t ∧
    (t.err = 3#4 ↔ ∃ n k, Requests i n ∧ n ≤ s.cap ∧ k < n ∧ s.nthDraw k = .unavailable) ∧
    (t.err = 3#4 → ∃ k, s.nthDraw k = .unavailable ∧ (∀ j, j < k → ∃ b, s.nthDraw j = .byte b) ∧
      FailsWith 0x13#8 (k + 1) s t)

/-- 60 R101, R102: every command but CLR ends by the success completion, its result fitting OBUF, or by the failure
completion with a code of R100. -/
def Obligations.CommandsEndByCompleteOrRaise : Prop :=
  ∀ (i : Instr) (s : State), i ≠ .clr → ∃ t, exec i s = .next t ∧
    ((∃ r n, r.length ≤ s.cap ∧ SucceedsWith r n s t) ∨
      ∃ status n, status ∈ [0x11#8, 0x12#8, 0x13#8, 0x15#8] ∧ FailsWith status n s t)

/-- 60 R103: what a command's outcome depends on (of the entropy source, the answers to the draws the command makes: those
up to the first unanswered one), and what it does to ILEN and IBUF; the outcome of an illegal word on nothing. -/
def Obligations.OutcomeDependsOnTheInputsOnly : Prop :=
  (∀ (i : Instr) (s s' t t' : State), s.obuf.wf = true → s'.obuf.wf = true → s.capr = s'.capr →
    (i = .unpad ∨ (∃ imm, i = .pad imm) →
      s.ilen = s'.ilen ∧ ∀ k, k < s.ilen.toNat → k < s.cap → s.ibuf.read k = s'.ibuf.read k) →
    (∀ n k, Requests i n → n ≤ s.cap → k < n → (∀ j, j < k → ∃ b, s.nthDraw j = .byte b) →
      s.nthDraw k = s'.nthDraw k) →
    exec i s = .next t → exec i s' = .next t' →
    t.status = t'.status ∧ t.olen = t'.olen ∧ t.obuf = t'.obuf ∧
      (i ≠ .clr → t.ilen = s.ilen ∧ t.ibuf = s.ibuf) ∧
      (i = .clr → t.ilen = 0#16 ∧ ∀ k, t.ibuf.read k = 0x00#8)) ∧
  (∀ (w : Word) (s s' : State), IllegalCommandWord w →
    ∃ t t', performAccess (.write .reg 0 4 w.toNat) s = .next t ∧
      performAccess (.write .reg 0 4 w.toNat) s' = .next t' ∧
      t.status = t'.status ∧ t.olen = t'.olen ∧ t.obuf = t'.obuf ∧ t.ilen = s.ilen ∧ t.ibuf = s.ibuf)

/-- 60 R104: which failure a write of CMD reports when several would apply. -/
def Obligations.FailurePriority : Prop :=
  ∀ (w : Word) (s : State), ∃ t, performAccess (.write .reg 0 4 w.toNat) s = .next t ∧
    (IllegalCommandWord w → t.err = 4#4 ∧ t.draws = s.draws) ∧
    ∀ i, decode w = .command i →
      (OutOfDomain i → t.err = 1#4 ∧ t.draws = s.draws) ∧
      (¬ OutOfDomain i → BeyondCapacity s i → t.err = 5#4 ∧ t.draws = s.draws) ∧
      (¬ OutOfDomain i → ¬ BeyondCapacity s i →
        (t.err = 3#4 → generates i = true) ∧ (t.err = 2#4 → i = .unpad) ∧
        (t.err = 0#4 ∨ t.err = 2#4 ∨ t.err = 3#4))

/-- 20_memory R36: PAD, UNPAD and CLR written a second time leave the same state. -/
def Obligations.PadUnpadClrTwiceIsOnce : Prop :=
  ∀ (i : Instr) (s t : State), (i = .unpad ∨ i = .clr ∨ ∃ imm, i = .pad imm) →
    exec i s = .next t → exec i t = .next t

/-! ### Host accesses -/

/-- 42 R88: the register reads. They change nothing; the value returned joins the run's outputs (log entry 3). -/
def Obligations.RegisterReads : Prop :=
  ∀ s : State,
    performAccess (.read .reg 1 1) s = .next { s with outputs := s.outputs ++ [.byte s.status] } ∧
    performAccess (.read .reg 2 2) s = .next { s with outputs := s.outputs ++ [.half s.ilen] } ∧
    performAccess (.read .reg 3 2) s = .next { s with outputs := s.outputs ++ [.half s.olen] } ∧
    performAccess (.read .reg 4 2) s = .next { s with outputs := s.outputs ++ [.half s.capr] }

/-- 42 R89: a write of ILEN stores the value unchanged, above CAP or not, and nothing else. -/
def Obligations.IlenWrite : Prop :=
  ∀ (v : Nat) (s : State), v ≤ 65535 →
    ∃ t, performAccess (.write .reg 2 2 v) s = .next t ∧ t.ilen.toNat = v ∧ t = { s with ilen := t.ilen }

/-- 42 R91: input buffer write and read. -/
def Obligations.InputBufferWriteAndRead : Prop :=
  ∀ (i : Nat) (b : Byte) (s : State), s.ibuf.wf = true → i < s.cap →
    (∃ t, performAccess (.write .ibuf i 1 b.toNat) s = .next t ∧
      (∀ j, t.ibuf.read j = if j = i then b else s.ibuf.read j) ∧ t.ibuf.wf = true ∧
      t = { s with ibuf := t.ibuf }) ∧
    performAccess (.read .ibuf i 1) s = .next { s with outputs := s.outputs ++ [.byte (s.ibuf.read i)] }

/-- 42 R92: output buffer read: the result's byte below OLEN, 0x00 from OLEN on; it consumes nothing. -/
def Obligations.OutputBufferRead : Prop :=
  ∀ (i : Nat) (s : State), s.Inv → i < s.cap →
    performAccess (.read .obuf i 1) s = .next { s with outputs := s.outputs ++ [.byte (s.obuf.read i)] } ∧
    (s.olen.toNat ≤ i → s.obuf.read i = 0x00#8)

/-- 20_memory R38: exactly the reserved accesses are refused; every other access has a next state. -/
def Obligations.ReservedAccessesAreRefused : Prop :=
  ∀ (a : HostAccess) (s : State),
    (Reserved s.cap a → ∃ r, performAccess a s = .refused r) ∧
    (¬ Reserved s.cap a → ∃ t, performAccess a s = .next t)

/-- 30_encoding R58: LOAD, one step for the line and one for each access of its expansion. -/
def Obligations.LoadStoresItsBytes : Prop :=
  ∀ (s : State) (bytes : List Byte) (rest : List ScriptLine), s.ibuf.wf = true → bytes.length ≤ s.cap →
    s.script = .load bytes :: rest →
    ∃ t, Host.Core.run Sys2Proof.core (bytes.length + 2) s = .next t ∧
      (∀ i, t.ibuf.read i = if i < bytes.length then bytes.getD i 0x00#8 else s.ibuf.read i) ∧
      t.ilen.toNat = bytes.length ∧
      t = { s with ibuf := t.ibuf, ilen := t.ilen, script := rest }

/-- 30_encoding R58: READOUT returns STATUS, OLEN and the OLEN result bytes, and changes nothing. -/
def Obligations.ReadoutReturnsTheResult : Prop :=
  ∀ (s : State) (rest : List ScriptLine), s.olen.toNat ≤ s.cap → s.script = .readout :: rest →
    Host.Core.run Sys2Proof.core (s.olen.toNat + 3) s = .next { s with
      script := rest
      outputs := s.outputs ++
        [.byte s.status, .half s.olen] ++ (List.range s.olen.toNat).map (fun i => .byte (s.obuf.read i)) }

/-- 42 R95; 30_encoding R58: COPYBACK makes the last result the next input. -/
def Obligations.CopybackMakesTheResultTheInput : Prop :=
  ∀ (s : State) (rest : List ScriptLine), s.ibuf.wf = true → s.olen.toNat ≤ s.cap → s.script = .copyback :: rest →
    ∃ t, Host.Core.run Sys2Proof.core (2 * s.olen.toNat + 3) s = .next t ∧
      t.ilen = s.olen ∧
      (∀ i, t.ibuf.read i = if i < s.olen.toNat then s.obuf.read i else s.ibuf.read i) ∧
      t = { s with
        ibuf := t.ibuf
        ilen := t.ilen
        script := rest
        outputs := s.outputs ++ [.half s.olen] ++ (List.range s.olen.toNat).map (fun i => .byte (s.obuf.read i)) }

/-! ### Whole-machine rules -/

/-- 10_state R26: every step keeps the invariant, from every state that meets it; and no step changes CAPR. -/
def Obligations.StepKeepsTheObservableInvariant : Prop :=
  ∀ s t : State, s.Inv → step s = .next t → t.Inv ∧ t.capr = s.capr

/-- 10_state R26, (a) to (g), of every state of every run from reset (70 R128), whatever the capacity, the script and the
answers of the entropy source. -/
def Obligations.ObservableStatesSatisfyTheClauses : Prop :=
  ∀ (c : Half) (lines : List ScriptLine) (answers : List Draw) (draws n : Nat) (t : State), Config.minCap ≤ c.toNat →
    Host.Core.run Sys2Proof.core n
      { State.resetOf c with script := lines, answers := answers, draws := draws } = .next t →
    t.olen.toNat ≤ c.toNat ∧
    (∀ i, t.olen.toNat ≤ i → i < c.toNat → t.obuf.read i = 0x00#8) ∧
    (t.err ≠ 0#4 → t.olen = 0#16 ∧ ∀ i, i < c.toNat → t.obuf.read i = 0x00#8) ∧
    (t.err.toNat ≤ 5 ∧ t.statusReserved = 0#3) ∧
    (t.done = 0#1 → t.err = 0#4 ∧ t.olen = 0#16 ∧ ∀ i, i < c.toNat → t.obuf.read i = 0x00#8) ∧
    (t.rngValid = false ∧ t.rngData = 0x00#8) ∧
    t.capr = c

/-- 10_state R26, R27: the reset state of every legal capacity meets the invariant. -/
def Obligations.ResetMeetsTheObservableInvariant : Prop :=
  (∀ c : Half, Config.minCap ≤ c.toNat → (State.resetOf c).Inv) ∧ State.reset.Inv

/-- 10_state R22: CAPR always reads CAP, and no step changes it. -/
def Obligations.CaprIsConstant : Prop :=
  (∀ s t : State, step s = .next t → t.capr = s.capr) ∧
  (∀ s : State, performAccess (.read .reg 4 2) s = .next { s with outputs := s.outputs ++ [.half s.capr] }) ∧
  (∀ (v width : Nat) (s : State), performAccess (.write .reg 4 width v) s = .refused .writeOfReadOnlyRegister)

/-- 20_memory R36; 42 R88 to R92 and that file's frame condition: a host access other than a write of CMD changes at most
the one register or byte it names, a read nothing (the value it returns joins the run's outputs, log entry 3). -/
def Obligations.AccessesOtherThanCmdChangeOnlyTheirTarget : Prop :=
  ∀ (a : HostAccess) (s t : State), performAccess a s = .next t → (∀ v, a ≠ .write .reg 0 4 v) →
    (∃ space i width v, a = .read space i width ∧ t = { s with outputs := s.outputs ++ [v] }) ∨
    (∃ v, a = .write .reg 2 2 v ∧ t = { s with ilen := BitVec.ofNat 16 v }) ∨
    (∃ i v, a = .write .ibuf i 1 v ∧ t = { s with ibuf := s.ibuf.write i (BitVec.ofNat 8 v) })
end

