-- ==== Sys2Proof/Laws/Decode.lean ====
section
/-! SUPPORT. The fields of a packed word, and a word from its fields (30_encoding R47). -/

namespace Sys2Proof.Laws

/-- The bits of a packed word, field by field. -/
theorem getLsbD_packWord (opc cls : Byte) (imm : Half) (i : Nat) :
    (packWord opc cls imm).getLsbD i =
      if i < 16 then imm.getLsbD i else if i - 16 < 8 then cls.getLsbD (i - 16) else opc.getLsbD (i - 16 - 8) := by
  have h1 := @BitVec.getLsbD_append 16 (8 + 8) i (opc ++ cls) imm
  have h2 := @BitVec.getLsbD_append 8 8 (i - 16) opc cls
  rw [h2] at h1
  rw [show (packWord opc cls imm).getLsbD i = (opc ++ cls ++ imm : BitVec (8 + 8 + 16)).getLsbD i from rfl, h1]

@[simp] theorem opcOf_packWord (opc cls : Byte) (imm : Half) : opcOf (packWord opc cls imm) = opc := by
  apply BitVec.eq_of_getLsbD_eq
  intro i hi
  rw [opcOf, BitVec.getLsbD_extractLsb', getLsbD_packWord, if_neg (by omega), if_neg (by omega),
    show 24 + i - 16 - 8 = i by omega]
  simp [hi]

@[simp] theorem clsOf_packWord (opc cls : Byte) (imm : Half) : clsOf (packWord opc cls imm) = cls := by
  apply BitVec.eq_of_getLsbD_eq
  intro i hi
  rw [clsOf, BitVec.getLsbD_extractLsb', getLsbD_packWord, if_neg (by omega), if_pos (by omega),
    show 16 + i - 16 = i by omega]
  simp [hi]

@[simp] theorem immOf_packWord (opc cls : Byte) (imm : Half) : immOf (packWord opc cls imm) = imm := by
  apply BitVec.eq_of_getLsbD_eq
  intro i hi
  rw [immOf, BitVec.getLsbD_extractLsb', getLsbD_packWord, if_pos (by omega), Nat.zero_add]
  simp [hi]

theorem packWord_fields (w : Word) : packWord (opcOf w) (clsOf w) (immOf w) = w := by
  apply BitVec.eq_of_getLsbD_eq
  intro i hi
  rw [getLsbD_packWord, opcOf, clsOf, immOf, BitVec.getLsbD_extractLsb', BitVec.getLsbD_extractLsb',
    BitVec.getLsbD_extractLsb']
  by_cases h1 : i < 16
  · simp [h1]
  · by_cases h2 : i - 16 < 8
    · simp [h1, h2, show 16 + (i - 16) = i by omega]
    · simp [h1, h2, show i - 16 - 8 < 8 by omega, show 24 + (i - 16 - 8) = i by omega]

/-- A word is its three fields. -/
theorem word_ext {w w' : Word} (ho : opcOf w = opcOf w') (hc : clsOf w = clsOf w') (hi : immOf w = immOf w') :
    w = w' := by
  rw [← packWord_fields w, ho, hc, hi, packWord_fields]

end Sys2Proof.Laws
end

