-- ==== Sys2Proof/Laws/State.lean ====
section
/-! SUPPORT. One lemma per field per write of a piece of state, and the fields of the two ends of a command. -/

namespace Sys2Proof.Laws

open Sys2Proof.Machine

@[simp] theorem setStatus_status (s : State) (v : Byte) : (s.setStatus v).status = v := rfl
@[simp] theorem setStatus_ilen (s : State) (v : Byte) : (s.setStatus v).ilen = s.ilen := rfl
@[simp] theorem setStatus_olen (s : State) (v : Byte) : (s.setStatus v).olen = s.olen := rfl
@[simp] theorem setStatus_capr (s : State) (v : Byte) : (s.setStatus v).capr = s.capr := rfl
@[simp] theorem setStatus_cap (s : State) (v : Byte) : (s.setStatus v).cap = s.cap := rfl
@[simp] theorem setStatus_ibuf (s : State) (v : Byte) : (s.setStatus v).ibuf = s.ibuf := rfl
@[simp] theorem setStatus_obuf (s : State) (v : Byte) : (s.setStatus v).obuf = s.obuf := rfl
@[simp] theorem setStatus_rngData (s : State) (v : Byte) : (s.setStatus v).rngData = s.rngData := rfl
@[simp] theorem setStatus_rngValid (s : State) (v : Byte) : (s.setStatus v).rngValid = s.rngValid := rfl
@[simp] theorem setStatus_answers (s : State) (v : Byte) : (s.setStatus v).answers = s.answers := rfl
@[simp] theorem setStatus_draws (s : State) (v : Byte) : (s.setStatus v).draws = s.draws := rfl
@[simp] theorem setStatus_script (s : State) (v : Byte) : (s.setStatus v).script = s.script := rfl
@[simp] theorem setStatus_outputs (s : State) (v : Byte) : (s.setStatus v).outputs = s.outputs := rfl

@[simp] theorem setIlen_status (s : State) (v : Half) : (s.setIlen v).status = s.status := rfl
@[simp] theorem setIlen_ilen (s : State) (v : Half) : (s.setIlen v).ilen = v := rfl
@[simp] theorem setIlen_olen (s : State) (v : Half) : (s.setIlen v).olen = s.olen := rfl
@[simp] theorem setIlen_capr (s : State) (v : Half) : (s.setIlen v).capr = s.capr := rfl
@[simp] theorem setIlen_cap (s : State) (v : Half) : (s.setIlen v).cap = s.cap := rfl
@[simp] theorem setIlen_ibuf (s : State) (v : Half) : (s.setIlen v).ibuf = s.ibuf := rfl
@[simp] theorem setIlen_obuf (s : State) (v : Half) : (s.setIlen v).obuf = s.obuf := rfl
@[simp] theorem setIlen_rngData (s : State) (v : Half) : (s.setIlen v).rngData = s.rngData := rfl
@[simp] theorem setIlen_rngValid (s : State) (v : Half) : (s.setIlen v).rngValid = s.rngValid := rfl
@[simp] theorem setIlen_answers (s : State) (v : Half) : (s.setIlen v).answers = s.answers := rfl
@[simp] theorem setIlen_draws (s : State) (v : Half) : (s.setIlen v).draws = s.draws := rfl
@[simp] theorem setIlen_script (s : State) (v : Half) : (s.setIlen v).script = s.script := rfl
@[simp] theorem setIlen_outputs (s : State) (v : Half) : (s.setIlen v).outputs = s.outputs := rfl

@[simp] theorem setOlen_status (s : State) (v : Half) : (s.setOlen v).status = s.status := rfl
@[simp] theorem setOlen_ilen (s : State) (v : Half) : (s.setOlen v).ilen = s.ilen := rfl
@[simp] theorem setOlen_olen (s : State) (v : Half) : (s.setOlen v).olen = v := rfl
@[simp] theorem setOlen_capr (s : State) (v : Half) : (s.setOlen v).capr = s.capr := rfl
@[simp] theorem setOlen_cap (s : State) (v : Half) : (s.setOlen v).cap = s.cap := rfl
@[simp] theorem setOlen_ibuf (s : State) (v : Half) : (s.setOlen v).ibuf = s.ibuf := rfl
@[simp] theorem setOlen_obuf (s : State) (v : Half) : (s.setOlen v).obuf = s.obuf := rfl
@[simp] theorem setOlen_rngData (s : State) (v : Half) : (s.setOlen v).rngData = s.rngData := rfl
@[simp] theorem setOlen_rngValid (s : State) (v : Half) : (s.setOlen v).rngValid = s.rngValid := rfl
@[simp] theorem setOlen_answers (s : State) (v : Half) : (s.setOlen v).answers = s.answers := rfl
@[simp] theorem setOlen_draws (s : State) (v : Half) : (s.setOlen v).draws = s.draws := rfl
@[simp] theorem setOlen_script (s : State) (v : Half) : (s.setOlen v).script = s.script := rfl
@[simp] theorem setOlen_outputs (s : State) (v : Half) : (s.setOlen v).outputs = s.outputs := rfl

@[simp] theorem setIbuf_status (s : State) (m : Memory) : (s.setIbuf m).status = s.status := rfl
@[simp] theorem setIbuf_ilen (s : State) (m : Memory) : (s.setIbuf m).ilen = s.ilen := rfl
@[simp] theorem setIbuf_olen (s : State) (m : Memory) : (s.setIbuf m).olen = s.olen := rfl
@[simp] theorem setIbuf_capr (s : State) (m : Memory) : (s.setIbuf m).capr = s.capr := rfl
@[simp] theorem setIbuf_cap (s : State) (m : Memory) : (s.setIbuf m).cap = s.cap := rfl
@[simp] theorem setIbuf_ibuf (s : State) (m : Memory) : (s.setIbuf m).ibuf = m := rfl
@[simp] theorem setIbuf_obuf (s : State) (m : Memory) : (s.setIbuf m).obuf = s.obuf := rfl
@[simp] theorem setIbuf_rngData (s : State) (m : Memory) : (s.setIbuf m).rngData = s.rngData := rfl
@[simp] theorem setIbuf_rngValid (s : State) (m : Memory) : (s.setIbuf m).rngValid = s.rngValid := rfl
@[simp] theorem setIbuf_answers (s : State) (m : Memory) : (s.setIbuf m).answers = s.answers := rfl
@[simp] theorem setIbuf_draws (s : State) (m : Memory) : (s.setIbuf m).draws = s.draws := rfl
@[simp] theorem setIbuf_script (s : State) (m : Memory) : (s.setIbuf m).script = s.script := rfl
@[simp] theorem setIbuf_outputs (s : State) (m : Memory) : (s.setIbuf m).outputs = s.outputs := rfl

@[simp] theorem setObuf_status (s : State) (m : Memory) : (s.setObuf m).status = s.status := rfl
@[simp] theorem setObuf_ilen (s : State) (m : Memory) : (s.setObuf m).ilen = s.ilen := rfl
@[simp] theorem setObuf_olen (s : State) (m : Memory) : (s.setObuf m).olen = s.olen := rfl
@[simp] theorem setObuf_capr (s : State) (m : Memory) : (s.setObuf m).capr = s.capr := rfl
@[simp] theorem setObuf_cap (s : State) (m : Memory) : (s.setObuf m).cap = s.cap := rfl
@[simp] theorem setObuf_ibuf (s : State) (m : Memory) : (s.setObuf m).ibuf = s.ibuf := rfl
@[simp] theorem setObuf_obuf (s : State) (m : Memory) : (s.setObuf m).obuf = m := rfl
@[simp] theorem setObuf_rngData (s : State) (m : Memory) : (s.setObuf m).rngData = s.rngData := rfl
@[simp] theorem setObuf_rngValid (s : State) (m : Memory) : (s.setObuf m).rngValid = s.rngValid := rfl
@[simp] theorem setObuf_answers (s : State) (m : Memory) : (s.setObuf m).answers = s.answers := rfl
@[simp] theorem setObuf_draws (s : State) (m : Memory) : (s.setObuf m).draws = s.draws := rfl
@[simp] theorem setObuf_script (s : State) (m : Memory) : (s.setObuf m).script = s.script := rfl
@[simp] theorem setObuf_outputs (s : State) (m : Memory) : (s.setObuf m).outputs = s.outputs := rfl

@[simp] theorem setRngout_status (s : State) (d : Byte) (v : Bool) : (s.setRngout d v).status = s.status := rfl
@[simp] theorem setRngout_ilen (s : State) (d : Byte) (v : Bool) : (s.setRngout d v).ilen = s.ilen := rfl
@[simp] theorem setRngout_olen (s : State) (d : Byte) (v : Bool) : (s.setRngout d v).olen = s.olen := rfl
@[simp] theorem setRngout_capr (s : State) (d : Byte) (v : Bool) : (s.setRngout d v).capr = s.capr := rfl
@[simp] theorem setRngout_cap (s : State) (d : Byte) (v : Bool) : (s.setRngout d v).cap = s.cap := rfl
@[simp] theorem setRngout_ibuf (s : State) (d : Byte) (v : Bool) : (s.setRngout d v).ibuf = s.ibuf := rfl
@[simp] theorem setRngout_obuf (s : State) (d : Byte) (v : Bool) : (s.setRngout d v).obuf = s.obuf := rfl
@[simp] theorem setRngout_rngData (s : State) (d : Byte) (v : Bool) : (s.setRngout d v).rngData = d := rfl
@[simp] theorem setRngout_rngValid (s : State) (d : Byte) (v : Bool) : (s.setRngout d v).rngValid = v := rfl
@[simp] theorem setRngout_answers (s : State) (d : Byte) (v : Bool) : (s.setRngout d v).answers = s.answers := rfl
@[simp] theorem setRngout_draws (s : State) (d : Byte) (v : Bool) : (s.setRngout d v).draws = s.draws := rfl
@[simp] theorem setRngout_script (s : State) (d : Byte) (v : Bool) : (s.setRngout d v).script = s.script := rfl
@[simp] theorem setRngout_outputs (s : State) (d : Byte) (v : Bool) : (s.setRngout d v).outputs = s.outputs := rfl

@[simp] theorem setEntropy_status (s : State) (as : List Draw) (n : Nat) : (s.setEntropy as n).status = s.status := rfl
@[simp] theorem setEntropy_ilen (s : State) (as : List Draw) (n : Nat) : (s.setEntropy as n).ilen = s.ilen := rfl
@[simp] theorem setEntropy_olen (s : State) (as : List Draw) (n : Nat) : (s.setEntropy as n).olen = s.olen := rfl
@[simp] theorem setEntropy_capr (s : State) (as : List Draw) (n : Nat) : (s.setEntropy as n).capr = s.capr := rfl
@[simp] theorem setEntropy_cap (s : State) (as : List Draw) (n : Nat) : (s.setEntropy as n).cap = s.cap := rfl
@[simp] theorem setEntropy_ibuf (s : State) (as : List Draw) (n : Nat) : (s.setEntropy as n).ibuf = s.ibuf := rfl
@[simp] theorem setEntropy_obuf (s : State) (as : List Draw) (n : Nat) : (s.setEntropy as n).obuf = s.obuf := rfl
@[simp] theorem setEntropy_rngData (s : State) (as : List Draw) (n : Nat) : (s.setEntropy as n).rngData = s.rngData := rfl
@[simp] theorem setEntropy_rngValid (s : State) (as : List Draw) (n : Nat) : (s.setEntropy as n).rngValid = s.rngValid := rfl
@[simp] theorem setEntropy_answers (s : State) (as : List Draw) (n : Nat) : (s.setEntropy as n).answers = as := rfl
@[simp] theorem setEntropy_draws (s : State) (as : List Draw) (n : Nat) : (s.setEntropy as n).draws = n := rfl
@[simp] theorem setEntropy_script (s : State) (as : List Draw) (n : Nat) : (s.setEntropy as n).script = s.script := rfl
@[simp] theorem setEntropy_outputs (s : State) (as : List Draw) (n : Nat) : (s.setEntropy as n).outputs = s.outputs := rfl

@[simp] theorem setScript_status (s : State) (ls : List ScriptLine) : (s.setScript ls).status = s.status := rfl
@[simp] theorem setScript_ilen (s : State) (ls : List ScriptLine) : (s.setScript ls).ilen = s.ilen := rfl
@[simp] theorem setScript_olen (s : State) (ls : List ScriptLine) : (s.setScript ls).olen = s.olen := rfl
@[simp] theorem setScript_capr (s : State) (ls : List ScriptLine) : (s.setScript ls).capr = s.capr := rfl
@[simp] theorem setScript_cap (s : State) (ls : List ScriptLine) : (s.setScript ls).cap = s.cap := rfl
@[simp] theorem setScript_ibuf (s : State) (ls : List ScriptLine) : (s.setScript ls).ibuf = s.ibuf := rfl
@[simp] theorem setScript_obuf (s : State) (ls : List ScriptLine) : (s.setScript ls).obuf = s.obuf := rfl
@[simp] theorem setScript_rngData (s : State) (ls : List ScriptLine) : (s.setScript ls).rngData = s.rngData := rfl
@[simp] theorem setScript_rngValid (s : State) (ls : List ScriptLine) : (s.setScript ls).rngValid = s.rngValid := rfl
@[simp] theorem setScript_answers (s : State) (ls : List ScriptLine) : (s.setScript ls).answers = s.answers := rfl
@[simp] theorem setScript_draws (s : State) (ls : List ScriptLine) : (s.setScript ls).draws = s.draws := rfl
@[simp] theorem setScript_script (s : State) (ls : List ScriptLine) : (s.setScript ls).script = ls := rfl
@[simp] theorem setScript_outputs (s : State) (ls : List ScriptLine) : (s.setScript ls).outputs = s.outputs := rfl

@[simp] theorem setOutputs_status (s : State) (vs : List ReadValue) : (s.setOutputs vs).status = s.status := rfl
@[simp] theorem setOutputs_ilen (s : State) (vs : List ReadValue) : (s.setOutputs vs).ilen = s.ilen := rfl
@[simp] theorem setOutputs_olen (s : State) (vs : List ReadValue) : (s.setOutputs vs).olen = s.olen := rfl
@[simp] theorem setOutputs_capr (s : State) (vs : List ReadValue) : (s.setOutputs vs).capr = s.capr := rfl
@[simp] theorem setOutputs_cap (s : State) (vs : List ReadValue) : (s.setOutputs vs).cap = s.cap := rfl
@[simp] theorem setOutputs_ibuf (s : State) (vs : List ReadValue) : (s.setOutputs vs).ibuf = s.ibuf := rfl
@[simp] theorem setOutputs_obuf (s : State) (vs : List ReadValue) : (s.setOutputs vs).obuf = s.obuf := rfl
@[simp] theorem setOutputs_rngData (s : State) (vs : List ReadValue) : (s.setOutputs vs).rngData = s.rngData := rfl
@[simp] theorem setOutputs_rngValid (s : State) (vs : List ReadValue) : (s.setOutputs vs).rngValid = s.rngValid := rfl
@[simp] theorem setOutputs_answers (s : State) (vs : List ReadValue) : (s.setOutputs vs).answers = s.answers := rfl
@[simp] theorem setOutputs_draws (s : State) (vs : List ReadValue) : (s.setOutputs vs).draws = s.draws := rfl
@[simp] theorem setOutputs_script (s : State) (vs : List ReadValue) : (s.setOutputs vs).script = s.script := rfl
@[simp] theorem setOutputs_outputs (s : State) (vs : List ReadValue) : (s.setOutputs vs).outputs = vs := rfl

@[simp] theorem raise_status (f : Failure) (s : State) : (raise f s).status = statusFailure f := rfl
@[simp] theorem raise_ilen (f : Failure) (s : State) : (raise f s).ilen = s.ilen := rfl
@[simp] theorem raise_olen (f : Failure) (s : State) : (raise f s).olen = 0#16 := rfl
@[simp] theorem raise_capr (f : Failure) (s : State) : (raise f s).capr = s.capr := rfl
@[simp] theorem raise_cap (f : Failure) (s : State) : (raise f s).cap = s.cap := rfl
@[simp] theorem raise_ibuf (f : Failure) (s : State) : (raise f s).ibuf = s.ibuf := rfl
@[simp] theorem raise_obuf (f : Failure) (s : State) : (raise f s).obuf = Memory.zero := rfl
@[simp] theorem raise_rngData (f : Failure) (s : State) : (raise f s).rngData = 0x00#8 := rfl
@[simp] theorem raise_rngValid (f : Failure) (s : State) : (raise f s).rngValid = false := rfl
@[simp] theorem raise_answers (f : Failure) (s : State) : (raise f s).answers = s.answers := rfl
@[simp] theorem raise_draws (f : Failure) (s : State) : (raise f s).draws = s.draws := rfl
@[simp] theorem raise_script (f : Failure) (s : State) : (raise f s).script = s.script := rfl
@[simp] theorem raise_outputs (f : Failure) (s : State) : (raise f s).outputs = s.outputs := rfl

@[simp] theorem complete_status (r : List Byte) (s : State) : (complete r s).status = statusSuccess := rfl
@[simp] theorem complete_ilen (r : List Byte) (s : State) : (complete r s).ilen = s.ilen := rfl
@[simp] theorem complete_olen (r : List Byte) (s : State) : (complete r s).olen = BitVec.ofNat 16 r.length := rfl
@[simp] theorem complete_capr (r : List Byte) (s : State) : (complete r s).capr = s.capr := rfl
@[simp] theorem complete_cap (r : List Byte) (s : State) : (complete r s).cap = s.cap := rfl
@[simp] theorem complete_ibuf (r : List Byte) (s : State) : (complete r s).ibuf = s.ibuf := rfl
@[simp] theorem complete_obuf (r : List Byte) (s : State) : (complete r s).obuf = Memory.ofBytes r := rfl
@[simp] theorem complete_rngData (r : List Byte) (s : State) : (complete r s).rngData = 0x00#8 := rfl
@[simp] theorem complete_rngValid (r : List Byte) (s : State) : (complete r s).rngValid = false := rfl
@[simp] theorem complete_answers (r : List Byte) (s : State) : (complete r s).answers = s.answers := rfl
@[simp] theorem complete_draws (r : List Byte) (s : State) : (complete r s).draws = s.draws := rfl
@[simp] theorem complete_script (r : List Byte) (s : State) : (complete r s).script = s.script := rfl
@[simp] theorem complete_outputs (r : List Byte) (s : State) : (complete r s).outputs = s.outputs := rfl

@[simp] theorem clearEngine_status (s : State) : (clearEngine s).status = statusClear := rfl
@[simp] theorem clearEngine_ilen (s : State) : (clearEngine s).ilen = 0#16 := rfl
@[simp] theorem clearEngine_olen (s : State) : (clearEngine s).olen = 0#16 := rfl
@[simp] theorem clearEngine_capr (s : State) : (clearEngine s).capr = s.capr := rfl
@[simp] theorem clearEngine_cap (s : State) : (clearEngine s).cap = s.cap := rfl
@[simp] theorem clearEngine_ibuf (s : State) : (clearEngine s).ibuf = Memory.zero := rfl
@[simp] theorem clearEngine_obuf (s : State) : (clearEngine s).obuf = Memory.zero := rfl
@[simp] theorem clearEngine_rngData (s : State) : (clearEngine s).rngData = 0x00#8 := rfl
@[simp] theorem clearEngine_rngValid (s : State) : (clearEngine s).rngValid = false := rfl
@[simp] theorem clearEngine_answers (s : State) : (clearEngine s).answers = s.answers := rfl
@[simp] theorem clearEngine_draws (s : State) : (clearEngine s).draws = s.draws := rfl
@[simp] theorem clearEngine_script (s : State) : (clearEngine s).script = s.script := rfl
@[simp] theorem clearEngine_outputs (s : State) : (clearEngine s).outputs = s.outputs := rfl

theorem cap_of_capr (s : State) : s.cap = s.capr.toNat := rfl

end Sys2Proof.Laws
end

