-- ==== Sys2Proof/Laws/Memory.lean ====
section
/-! SUPPORT. Buffers: a read after a write, the canonical form kept by every operation, the bytes of a formatted result. -/

namespace Sys2Proof.Laws

open Sys2Proof.Machine

/-! ### The canonical form -/

theorem wfFrom_cons {low a : Nat} {b : Byte} {rest : Memory} :
    Memory.wfFrom low ((a, b) :: rest) = true ↔ low ≤ a ∧ b ≠ unlistedByte ∧ Memory.wfFrom (a + 1) rest = true := by
  simp [Memory.wfFrom, and_assoc]

theorem wfFrom_mono {m : Memory} {low low' : Nat} (h : Memory.wfFrom low m = true) (hl : low' ≤ low) :
    Memory.wfFrom low' m = true := by
  cases m with
  | nil => rfl
  | cons c rest =>
    rw [wfFrom_cons] at h ⊢
    exact ⟨hl.trans h.1, h.2⟩

/-- Below its first index a canonical buffer lists nothing. -/
theorem read_below_wfFrom {m : Memory} {low i : Nat} (h : Memory.wfFrom low m = true) (hi : i < low) :
    m.read i = unlistedByte := by
  induction m generalizing low with
  | nil => rfl
  | cons c rest ih =>
    obtain ⟨a, b⟩ := c
    rw [wfFrom_cons] at h
    rw [Memory.read, if_neg (by omega)]
    exact ih h.2.2 (by omega)

theorem write_keeps_wfFrom {m : Memory} {low i : Nat} (v : Byte) (h : Memory.wfFrom low m = true) (hi : low ≤ i) :
    Memory.wfFrom low (m.write i v) = true := by
  induction m generalizing low with
  | nil =>
    rw [Memory.write]
    split
    · rfl
    · next hv => exact wfFrom_cons.2 ⟨hi, hv, rfl⟩
  | cons c rest ih =>
    obtain ⟨a, b⟩ := c
    have h' := wfFrom_cons.1 h
    rw [Memory.write]
    split
    · split
      · exact h
      · next hlt hv => exact wfFrom_cons.2 ⟨hi, hv, wfFrom_cons.2 ⟨hlt, h'.2⟩⟩
    · split
      · next heq =>
        subst heq
        split
        · exact wfFrom_mono h'.2.2 (by omega)
        · next hv => exact wfFrom_cons.2 ⟨hi, hv, h'.2.2⟩
      · exact wfFrom_cons.2 ⟨h'.1, h'.2.1, ih h'.2.2 (by omega)⟩

theorem write_keeps_wf {m : Memory} (i : Nat) (v : Byte) (h : m.wf = true) : (m.write i v).wf = true :=
  write_keeps_wfFrom v h (Nat.zero_le i)

theorem ofBytesFrom_wf (i : Nat) (r : List Byte) : Memory.wfFrom i (Memory.ofBytesFrom i r) = true := by
  induction r generalizing i with
  | nil => rfl
  | cons b rest ih =>
    rw [Memory.ofBytesFrom]
    split
    · exact wfFrom_mono (ih (i + 1)) (by omega)
    · next hb => exact wfFrom_cons.2 ⟨le_refl i, hb, ih (i + 1)⟩

theorem ofBytes_wf (r : List Byte) : (Memory.ofBytes r).wf = true := ofBytesFrom_wf 0 r

theorem zero_wf : Memory.zero.wf = true := rfl

/-! ### The bound on the indices -/

theorem below_cons {a n : Nat} {b : Byte} {rest : Memory} :
    Memory.below ((a, b) :: rest) n = true ↔ a < n ∧ rest.below n = true := by
  rw [Memory.below, List.all_cons, Bool.and_eq_true, decide_eq_true_eq]
  rfl

theorem write_keeps_below {m : Memory} {n i : Nat} (v : Byte) (h : m.below n = true) (hi : i < n) :
    (m.write i v).below n = true := by
  induction m with
  | nil =>
    rw [Memory.write]
    split
    · rfl
    · exact below_cons.2 ⟨hi, rfl⟩
  | cons c rest ih =>
    obtain ⟨a, b⟩ := c
    have h' := below_cons.1 h
    rw [Memory.write]
    split
    · split
      · exact h
      · exact below_cons.2 ⟨hi, h⟩
    · split
      · split
        · exact h'.2
        · exact below_cons.2 ⟨hi, h'.2⟩
      · exact below_cons.2 ⟨h'.1, ih h'.2⟩

theorem ofBytesFrom_below (i : Nat) (r : List Byte) : (Memory.ofBytesFrom i r).below (i + r.length) = true := by
  induction r generalizing i with
  | nil => rfl
  | cons b rest ih =>
    have h := ih (i + 1)
    rw [show i + 1 + rest.length = i + (b :: rest).length by simp; omega] at h
    rw [Memory.ofBytesFrom]
    split
    · exact h
    · exact below_cons.2 ⟨by simp, h⟩

theorem below_mono {m : Memory} {n n' : Nat} (h : m.below n = true) (hn : n ≤ n') : m.below n' = true := by
  simp only [Memory.below, List.all_eq_true, decide_eq_true_eq] at h ⊢
  exact fun c hc => (h c hc).trans_le hn

theorem ofBytes_below {r : List Byte} {n : Nat} (h : r.length ≤ n) : (Memory.ofBytes r).below n = true :=
  below_mono (ofBytesFrom_below 0 r) (by omega)

/-! ### Reads -/

@[simp] theorem read_zero (i : Nat) : Memory.zero.read i = 0x00#8 := rfl

/-- A read after a write: the byte written at its index, the earlier byte everywhere else. -/
theorem read_write_wfFrom {m : Memory} {low : Nat} (i j : Nat) (v : Byte) (h : Memory.wfFrom low m = true) :
    (m.write i v).read j = if j = i then v else m.read j := by
  induction m generalizing low with
  | nil =>
    rw [Memory.write]
    split
    · next hv => simp [Memory.read, hv]
    · simp [Memory.read, @eq_comm _ i j]
  | cons c rest ih =>
    obtain ⟨a, b⟩ := c
    have h' := wfFrom_cons.1 h
    have hrest : ∀ k, k ≤ a → Memory.read rest k = unlistedByte :=
      fun k hk => read_below_wfFrom h'.2.2 (by omega)
    rw [Memory.write]
    split
    · next hlt =>
      split
      · next hv =>
        split
        · next hj => rw [Memory.read, if_neg (by omega), hrest j (by omega), hv]
        · rfl
      · rw [Memory.read]
        simp [@eq_comm _ i j]
    · split
      · next heq =>
        split
        · next hv =>
          split
          · next hj => rw [hrest j (by omega), hv]
          · next hj => rw [Memory.read, if_neg (by omega)]
        · rw [Memory.read, Memory.read, ← heq]
          by_cases hj : j = i
          · simp [hj]
          · rw [if_neg (Ne.symm hj), if_neg hj, if_neg (Ne.symm hj)]
      · rw [Memory.read, Memory.read, ih h'.2.2]
        split
        · next haj => rw [if_neg (by omega)]
        · rfl

theorem read_write {m : Memory} (h : m.wf = true) (i j : Nat) (v : Byte) :
    (m.write i v).read j = if j = i then v else m.read j :=
  read_write_wfFrom i j v h

theorem read_ofBytesFrom (i : Nat) (r : List Byte) (j : Nat) :
    (Memory.ofBytesFrom i r).read j = if j < i then 0x00#8 else r.getD (j - i) 0x00#8 := by
  induction r generalizing i with
  | nil => simp [Memory.ofBytesFrom, Memory.read, unlistedByte]
  | cons b rest ih =>
    rw [Memory.ofBytesFrom]
    rcases Nat.lt_trichotomy j i with hj | rfl | hj
    · rw [if_pos hj]
      split
      · rw [ih, if_pos (by omega)]
      · rw [Memory.read, if_neg (by omega), ih, if_pos (by omega)]
    · split
      · next hb => rw [ih, if_pos (by omega)]; simp [hb, unlistedByte]
      · simp [Memory.read]
    · obtain ⟨d, hd⟩ : ∃ d, j - i = d + 1 := ⟨j - i - 1, by omega⟩
      have hd' : j - (i + 1) = d := by omega
      split
      · rw [ih, if_neg (by omega), if_neg (by omega), hd, hd', List.getD_cons_succ]
      · rw [Memory.read, if_neg (by omega), ih, if_neg (by omega), if_neg (by omega), hd, hd', List.getD_cons_succ]

/-- The formatted result: its bytes from index 0, and 0x00 after them (60 R102). -/
theorem read_ofBytes (r : List Byte) (i : Nat) : (Memory.ofBytes r).read i = r.getD i 0x00#8 := by
  simp [Memory.ofBytes, read_ofBytesFrom]

@[simp] theorem readRange_length (m : Memory) (start n : Nat) : (m.readRange start n).length = n := by
  induction n generalizing start with
  | zero => rfl
  | succ n ih => simp [Memory.readRange, ih]

theorem readRange_getElem? (m : Memory) (start n i : Nat) :
    (m.readRange start n)[i]? = if i < n then some (m.read (start + i)) else none := by
  induction n generalizing start i with
  | zero => simp [Memory.readRange]
  | succ n ih =>
    cases i with
    | zero => simp [Memory.readRange]
    | succ i => simp [Memory.readRange, ih, Nat.add_assoc, Nat.add_comm 1 i]

theorem readRange_getD (m : Memory) (start n i : Nat) :
    (m.readRange start n).getD i 0x00#8 = if i < n then m.read (start + i) else 0x00#8 := by
  rw [List.getD_eq_getElem?_getD, readRange_getElem?]
  split <;> rfl

/-- Two buffers with the same bytes on a range give the same sub-sequence. -/
theorem readRange_congr {m m' : Memory} {start n : Nat} (h : ∀ i, start ≤ i → i < start + n → m.read i = m'.read i) :
    m.readRange start n = m'.readRange start n := by
  induction n generalizing start with
  | zero => rfl
  | succ n ih =>
    rw [Memory.readRange, Memory.readRange, h start le_rfl (by omega), ih (fun i h1 h2 => h i (by omega) (by omega))]

/-- A buffer that holds a sequence on a range gives that sequence back. -/
theorem readRange_eq_of_reads {m : Memory} {r : List Byte} {start : Nat}
    (h : ∀ i (hi : i < r.length), m.read (start + i) = r[i]) : m.readRange start r.length = r := by
  apply List.ext_getElem?
  intro i
  rw [readRange_getElem?]
  split
  · next hi => rw [h i hi, List.getElem?_eq_getElem hi]
  · next hi => rw [List.getElem?_eq_none (by omega)]

/-- Two canonical buffers with the same bytes are the same list. -/
theorem wfFrom_ext {m m' : Memory} {low : Nat} (h : Memory.wfFrom low m = true) (h' : Memory.wfFrom low m' = true)
    (hr : ∀ i, m.read i = m'.read i) : m = m' := by
  induction m generalizing m' low with
  | nil =>
    cases m' with
    | nil => rfl
    | cons c rest =>
      have w' := wfFrom_cons.1 h'
      have := hr c.1
      rw [Memory.read, Memory.read, if_pos rfl] at this
      exact absurd this.symm w'.2.1
  | cons c rest ih =>
    obtain ⟨a, b⟩ := c
    have w := wfFrom_cons.1 h
    cases m' with
    | nil =>
      have := hr a
      simp_all [Memory.read]
    | cons c' rest' =>
      obtain ⟨a', b'⟩ := c'
      have w' := wfFrom_cons.1 h'
      have haa : a = a' := by
        rcases Nat.lt_trichotomy a a' with hlt | heq | hgt
        · have := hr a
          rw [Memory.read, if_pos rfl, Memory.read, if_neg (by omega), read_below_wfFrom w'.2.2 (by omega)] at this
          exact absurd this w.2.1
        · exact heq
        · have := hr a'
          rw [Memory.read, if_neg (by omega), Memory.read, if_pos rfl, read_below_wfFrom w.2.2 (by omega)] at this
          exact absurd this.symm w'.2.1
      subst haa
      have hbb : b = b' := by
        have := hr a
        simpa [Memory.read] using this
      subst hbb
      have htail : rest = rest' := by
        refine ih w.2.2 w'.2.2 (fun i => ?_)
        by_cases hi : a = i
        · subst hi
          rw [read_below_wfFrom w.2.2 (by omega), read_below_wfFrom w'.2.2 (by omega)]
        · have := hr i
          rwa [Memory.read, if_neg hi, Memory.read, if_neg hi] at this
      rw [htail]

theorem wf_ext {m m' : Memory} (h : m.wf = true) (h' : m'.wf = true) (hr : ∀ i, m.read i = m'.read i) : m = m' :=
  wfFrom_ext h h' hr

end Sys2Proof.Laws
end

