-- ==== Sys2Proof/Laws/Ops.lean ====
section
/-! SUPPORT. What each shared operation does, said once: the two ends of a command, the entropy port, GENBYTES, the
operands, the padding check. -/

namespace Sys2Proof.Laws

open Sys2Proof.Machine

/-! ### STATUS -/

theorem statusSuccess_eq : statusSuccess = 0x10#8 := by decide
theorem statusClear_eq : statusClear = 0x00#8 := by decide

theorem err_statusFailure (f : Failure) : (statusFailure f).extractLsb' 0 4 = failureCode f := by
  cases f <;> decide

theorem raise_err (f : Failure) (s : State) : (raise f s).err = failureCode f := err_statusFailure f

theorem complete_err (r : List Byte) (s : State) : (complete r s).err = 0#4 := by
  rw [State.err, complete_status]
  decide

/-! ### The ends of a command -/

theorem setEntropy_self (s : State) : s.setEntropy (s.answers.drop 0) (s.draws + 0) = s := rfl

theorem complete_succeeds (r : List Byte) (n : Nat) (s : State) (h : r.length < 2 ^ 16) :
    SucceedsWith r n s (complete r (s.setEntropy (s.answers.drop n) (s.draws + n))) where
  status := by simp; decide
  olen := by simpa using h
  result := by simp [read_ofBytes]
  form := ofBytes_wf r
  kept := ⟨rfl, rfl, rfl, rfl, rfl, rfl, rfl⟩
  drawn := ⟨rfl, rfl⟩

theorem raise_fails (f : Failure) (n : Nat) (s : State) :
    FailsWith (statusFailure f) n s (raise f (s.setEntropy (s.answers.drop n) (s.draws + n))) where
  status := rfl
  olen := rfl
  result := fun _ => rfl
  form := rfl
  kept := ⟨rfl, rfl, rfl, rfl, rfl, rfl, rfl⟩
  drawn := ⟨rfl, rfl⟩

/-! ### The entropy port -/

theorem entropyDraw_eq (s : State) :
    entropyDraw s = (s.nthDraw 0, s.setEntropy (s.answers.drop 1) (s.draws + 1)) := by
  cases h : s.answers <;> simp [entropyDraw, State.nthDraw, h]

/-- The answers that stand in the run's list, or past its end, do not depend on what else the engine holds. -/
theorem nthDraw_congr {s t : State} (ha : t.answers = s.answers) (hd : t.draws = s.draws) (k : Nat) :
    t.nthDraw k = s.nthDraw k := by
  simp [State.nthDraw, ha, hd]

theorem nthDraw_after {s t : State} {n : Nat} (h : MadeDraws n s t) (k : Nat) :
    t.nthDraw k = s.nthDraw (n + k) := by
  simp [State.nthDraw, h.answers, h.draws, Nat.add_assoc]

theorem deliver_eq (k : Nat) (b : Byte) (s : State) :
    deliver k b s = (s.setObuf (s.obuf.write k b)).setRngout 0x00#8 false := rfl

/-- The state a run of draws leaves: OBUF and RNGOUT in the hands of the command, the answers used up. -/
def afterDraws (s : State) (m : Memory) (d : Byte) (v : Bool) (n : Nat) : State :=
  ((s.setObuf m).setRngout d v).setEntropy (s.answers.drop n) (s.draws + n)

/-- Every draw answered: the loop ends having made them all and, OBUF being canonical, byte `i` of the answers stands at
index `k + i` and every byte below `k` is as before. -/
theorem drawLoop_delivers (bs : List Byte) (k : Nat) (s : State)
    (h : ∀ i (hi : i < bs.length), s.nthDraw i = .byte bs[i]) :
    ∃ m d v, drawLoop bs.length k s = (true, afterDraws s m d v bs.length) ∧
      (s.obuf.wf = true → m.wf = true ∧ (∀ i (hi : i < bs.length), m.read (k + i) = bs[i]) ∧
        ∀ j, j < k → m.read j = s.obuf.read j) := by
  induction bs generalizing k s with
  | nil => exact ⟨s.obuf, s.rngData, s.rngValid, rfl, fun hw => ⟨hw, fun i hi => absurd hi (by simp), fun _ _ => rfl⟩⟩
  | cons b rest ih =>
    have h0 : s.nthDraw 0 = .byte b := h 0 (by simp)
    let s' : State := deliver k b (s.setEntropy (s.answers.drop 1) (s.draws + 1))
    have hs : ∀ i, s'.nthDraw i = s.nthDraw (1 + i) := nthDraw_after ⟨rfl, rfl⟩
    obtain ⟨m, d, v, he, hm⟩ := ih (k + 1) s' (fun i hi => by
      rw [hs, Nat.add_comm]
      exact h (i + 1) (by simpa using hi))
    refine ⟨m, d, v, ?_, fun hw => ?_⟩
    · rw [List.length_cons, drawLoop, entropyDraw_eq, h0]
      simp only []
      rw [he]
      simp only [afterDraws, s', deliver_eq, State.setObuf, State.setRngout, State.setEntropy, List.drop_drop]
      simp [Nat.add_assoc, Nat.add_comm 1]
    · obtain ⟨hw', hr, hb⟩ := hm (write_keeps_wf k b hw)
      refine ⟨hw', ?_, ?_⟩
      · intro i hi
        cases i with
        | zero =>
          rw [hb (k + 0) (by omega)]
          exact (read_write hw k k b).trans (if_pos rfl)
        | succ i =>
          have := hr i (by simpa using hi)
          rw [show k + (i + 1) = k + 1 + i by omega]
          simpa using this
      · intro j hj
        rw [hb j (by omega)]
        exact (read_write hw k j b).trans (if_neg (by omega))

/-- A draw unanswered: the loop ends there, having made that draw and no further one. -/
theorem drawLoop_stops (n j k : Nat) (s : State) (hj : j < n) (hb : ∀ i, i < j → ∃ b, s.nthDraw i = .byte b)
    (hu : s.nthDraw j = .unavailable) :
    ∃ m d v, drawLoop n k s = (false, afterDraws s m d v (j + 1)) := by
  induction n generalizing j k s with
  | zero => omega
  | succ n ih =>
    cases j with
    | zero =>
      refine ⟨s.obuf, s.rngData, s.rngValid, ?_⟩
      rw [drawLoop, entropyDraw_eq, hu]
      rfl
    | succ j =>
      obtain ⟨b, h0⟩ := hb 0 (by omega)
      let s' : State := deliver k b (s.setEntropy (s.answers.drop 1) (s.draws + 1))
      have hs : ∀ i, s'.nthDraw i = s.nthDraw (1 + i) := nthDraw_after ⟨rfl, rfl⟩
      obtain ⟨m, d, v, he⟩ := ih j (k + 1) s' (by omega)
        (fun i hi => by rw [hs, Nat.add_comm]; exact hb (i + 1) (by omega))
        (by rw [hs, Nat.add_comm]; exact hu)
      refine ⟨m, d, v, ?_⟩
      rw [drawLoop, entropyDraw_eq, h0]
      simp only []
      rw [he]
      simp only [afterDraws, s', deliver_eq, State.setObuf, State.setRngout, State.setEntropy, List.drop_drop]
      simp [Nat.add_assoc, Nat.add_comm 1]

/-- Of the next `n` draws either all are answered, or there is a first that is not. -/
theorem draws_cases (s : State) (n : Nat) :
    (∃ bs : List Byte, bs.length = n ∧ ∀ i (hi : i < bs.length), s.nthDraw i = .byte bs[i]) ∨
      ∃ j, j < n ∧ (∀ i, i < j → ∃ b, s.nthDraw i = .byte b) ∧ s.nthDraw j = .unavailable := by
  induction n with
  | zero => exact .inl ⟨[], rfl, fun i hi => absurd hi (by simp)⟩
  | succ n ih =>
    rcases ih with ⟨bs, hl, hb⟩ | ⟨j, hj, h⟩
    · cases hd : s.nthDraw n with
      | byte b =>
        refine .inl ⟨bs ++ [b], by simp [hl], fun i hi => ?_⟩
        rcases Nat.lt_or_ge i bs.length with hlt | hge
        · rw [List.getElem_append_left hlt]
          exact hb i hlt
        · have : i = n := by simp at hi; omega
          subst this
          rw [List.getElem_append_right hge, hd]
          simp
      | unavailable =>
        exact .inr ⟨n, by omega, fun i hi => ⟨bs[i]'(by omega), hb i (by omega)⟩, hd⟩
    · exact .inr ⟨j, by omega, h⟩

/-! ### GENBYTES (40_keygen R63): its three ends -/

theorem genBytes_beyond_capacity {n : Nat} {s : State} (h : s.cap < n) : genBytes n s = raise .capacityExceeded s := by
  rw [genBytes, if_pos h]

/-- Every draw answered: it completes after exactly `n` draws; its result has `n` bytes and, OBUF being canonical before,
they are the drawn bytes in order. -/
theorem genBytes_delivers {bs : List Byte} {s : State} (hc : bs.length ≤ s.cap)
    (h : ∀ i (hi : i < bs.length), s.nthDraw i = .byte bs[i]) :
    ∃ r, r.length = bs.length ∧ (s.obuf.wf = true → r = bs) ∧
      genBytes bs.length s = complete r (s.setEntropy (s.answers.drop bs.length) (s.draws + bs.length)) := by
  obtain ⟨m, d, v, he, hm⟩ := drawLoop_delivers bs 0 s h
  refine ⟨m.readRange 0 bs.length, readRange_length _ _ _, fun hw => readRange_eq_of_reads (hm hw).2.1, ?_⟩
  rw [genBytes, if_neg (by omega), he]
  rfl

theorem genBytes_unanswered {n j : Nat} {s : State} (hc : n ≤ s.cap) (hj : j < n)
    (hb : ∀ i, i < j → ∃ b, s.nthDraw i = .byte b) (hu : s.nthDraw j = .unavailable) :
    genBytes n s =
      raise .entropySourceError (s.setEntropy (s.answers.drop (j + 1)) (s.draws + (j + 1))) := by
  obtain ⟨m, d, v, he⟩ := drawLoop_stops n j 0 s hj hb hu
  rw [genBytes, if_neg (by omega), he]
  rfl

/-- What GENBYTES can do: refuse the length without a draw, deliver exactly `n` drawn bytes, or end at the first draw
that is not answered. -/
theorem genBytes_cases (n : Nat) (s : State) :
    (s.cap < n ∧ genBytes n s = raise .capacityExceeded s) ∨
    (n ≤ s.cap ∧ ∃ bs r : List Byte, bs.length = n ∧ r.length = n ∧
      (∀ i (hi : i < bs.length), s.nthDraw i = .byte bs[i]) ∧ (s.obuf.wf = true → r = bs) ∧
      genBytes n s = complete r (s.setEntropy (s.answers.drop n) (s.draws + n))) ∨
    (n ≤ s.cap ∧ ∃ j, j < n ∧ (∀ i, i < j → ∃ b, s.nthDraw i = .byte b) ∧ s.nthDraw j = .unavailable ∧
      genBytes n s =
        raise .entropySourceError (s.setEntropy (s.answers.drop (j + 1)) (s.draws + (j + 1)))) := by
  rcases Nat.lt_or_ge s.cap n with h | h
  · exact .inl ⟨h, genBytes_beyond_capacity h⟩
  · rcases draws_cases s n with ⟨bs, rfl, hb⟩ | ⟨j, hj, hb, hu⟩
    · obtain ⟨r, hl, hr, he⟩ := genBytes_delivers h hb
      exact .inr (.inl ⟨h, bs, r, rfl, hl, hb, hr, he⟩)
    · exact .inr (.inr ⟨h, j, hj, hb, hu, genBytes_unanswered h hj hb hu⟩)

/-! ### Operands -/

@[simp] theorem inputBytes_length (s : State) : (inputBytes s).length = s.ilen.toNat := by simp [inputBytes]

/-- The block-boundary detector: from 1 to the block size (41_pkcs7 R76). -/
theorem padLength_bounds {blockSize : Nat} (h : 1 ≤ blockSize) (len : Nat) :
    1 ≤ padLength blockSize len ∧ padLength blockSize len ≤ blockSize := by
  have := Nat.mod_lt len h
  rw [padLength]
  omega

/-- The padded length is the next multiple of the block size (41_pkcs7 R77(g)). -/
theorem add_padLength {blockSize : Nat} (h : 1 ≤ blockSize) (len : Nat) :
    len + padLength blockSize len = (len / blockSize + 1) * blockSize := by
  have h1 := Nat.mod_lt len h
  have h2 := Nat.div_add_mod len blockSize
  rw [padLength, Nat.add_mul, Nat.one_mul, Nat.mul_comm (len / blockSize)]
  omega

/-- The padding-byte checker accepts exactly the inputs that pass the three checks (41_pkcs7 R79). -/
theorem paddingValid_iff (m : Memory) (len : Nat) : paddingValid m len = true ↔ ValidPadding m len := by
  by_cases hl : 1 ≤ len
  · have hn : lastByte m len = m.read (len - 1) := by rw [lastByte, if_pos hl]
    simp only [paddingValid, hn, ValidPadding, Bool.and_eq_true, decide_eq_true_eq, List.all_eq_true]
    constructor
    · rintro ⟨⟨⟨h1, h2⟩, h3⟩, h4⟩
      refine ⟨h1, h2, h3, fun j hj hj' => h4 _ ?_⟩
      refine List.mem_of_getElem? (i := j - (len - (m.read (len - 1)).toNat)) ?_
      rw [readRange_getElem?, if_pos (by omega)]
      congr 2
      omega
    · rintro ⟨h1, h2, h3, h4⟩
      refine ⟨⟨⟨h1, h2⟩, h3⟩, fun b hb => ?_⟩
      obtain ⟨i, hi⟩ := List.getElem?_of_mem hb
      rw [readRange_getElem?] at hi
      split at hi
      · rw [← Option.some.inj hi]
        exact h4 _ (by omega) (by omega)
      · exact absurd hi (by simp)
  · simp [paddingValid, ValidPadding, hl]

/-! ### PAD and UNPAD -/

/-- What PAD can do (41_pkcs7 R76). -/
theorem padCommand_cases (imm : Half) (s : State) :
    ((imm.toNat = 0 ∨ 255 < imm.toNat) ∧ padCommand imm s = raise .invalidParameter s) ∨
    (1 ≤ imm.toNat ∧ imm.toNat ≤ 255 ∧
      (s.cap < s.ilen.toNat ∨ s.cap < s.ilen.toNat + padLength imm.toNat s.ilen.toNat) ∧
      padCommand imm s = raise .capacityExceeded s) ∨
    (1 ≤ imm.toNat ∧ imm.toNat ≤ 255 ∧ s.ilen.toNat + padLength imm.toNat s.ilen.toNat ≤ s.cap ∧
      padCommand imm s = complete (inputBytes s ++ List.replicate (padLength imm.toNat s.ilen.toNat)
        (BitVec.ofNat 8 (padLength imm.toNat s.ilen.toNat))) s) := by
  by_cases hb : imm.toNat = 0 ∨ 255 < imm.toNat
  · exact .inl ⟨hb, by simp only [padCommand, padBlockSize, if_pos hb]⟩
  · have he : padCommand imm s = padInput imm.toNat s := by simp only [padCommand, padBlockSize, if_neg hb]
    rw [he, padInput]
    by_cases h1 : s.cap < s.ilen.toNat
    · exact .inr (.inl ⟨by omega, by omega, .inl h1, if_pos h1⟩)
    · by_cases h2 : s.cap < s.ilen.toNat + padLength imm.toNat s.ilen.toNat
      · exact .inr (.inl ⟨by omega, by omega, .inr h2, (if_neg h1).trans (if_pos h2)⟩)
      · exact .inr (.inr ⟨by omega, by omega, by omega, (if_neg h1).trans (if_neg h2)⟩)

/-- The bytes of PAD's result: the data, then the padding, then nothing (41_pkcs7 R76). -/
theorem padded_getD (m : Memory) (len padLen : Nat) (v : Byte) (i : Nat) :
    (m.readRange 0 len ++ List.replicate padLen v).getD i 0x00#8 =
      if i < len then m.read i else if i < len + padLen then v else 0x00#8 := by
  rw [List.getD_eq_getElem?_getD, List.getElem?_append, readRange_length]
  split
  · next h => rw [readRange_getElem?, if_pos h, Nat.zero_add]; rfl
  · rw [List.getElem?_replicate]
    by_cases h : i - len < padLen
    · rw [if_pos h, if_pos (by omega)]; rfl
    · rw [if_neg h, if_neg (by omega)]; rfl

/-- What UNPAD can do (41_pkcs7 R79). -/
theorem unpadCommand_cases (s : State) :
    (s.cap < s.ilen.toNat ∧ unpadCommand s = raise .capacityExceeded s) ∨
    (s.ilen.toNat ≤ s.cap ∧ ¬ ValidPadding s.ibuf s.ilen.toNat ∧ unpadCommand s = raise .invalidPadding s) ∨
    (s.ilen.toNat ≤ s.cap ∧ ValidPadding s.ibuf s.ilen.toNat ∧
      unpadCommand s =
        complete (s.ibuf.readRange 0 (s.ilen.toNat - (s.ibuf.read (s.ilen.toNat - 1)).toNat)) s) := by
  rw [unpadCommand]
  by_cases h1 : s.cap < s.ilen.toNat
  · exact .inl ⟨h1, if_pos h1⟩
  · by_cases h2 : paddingValid s.ibuf s.ilen.toNat = true
    · have hv := (paddingValid_iff _ _).1 h2
      have hl : lastByte s.ibuf s.ilen.toNat = s.ibuf.read (s.ilen.toNat - 1) := if_pos hv.1
      refine .inr (.inr ⟨by omega, hv, ?_⟩)
      rw [← hl]
      exact (if_neg h1).trans (if_pos h2)
    · exact .inr (.inl ⟨by omega, fun hv => h2 ((paddingValid_iff _ _).2 hv), (if_neg h1).trans (if_neg h2)⟩)

end Sys2Proof.Laws
end

