-- ==== Sys2Proof/Laws/PerInstr.lean ====
section
/-! SUPPORT. The per-instruction family EncodeFields: a command's word carries its opcode, its key class and its operand
in the fields of 30_encoding R47, one lemma per constructor. -/

namespace Sys2Proof.Laws.EncodeFields

def Statement (i : Instr) : Prop :=
  opcOf (encode i) = i.opcode ∧ clsOf (encode i) = i.keyClass ∧ immOf (encode i) = i.operand

theorem of_packWord (i : Instr) : Statement i :=
  ⟨opcOf_packWord _ _ _, clsOf_packWord _ _ _, immOf_packWord _ _ _⟩

theorem gen (imm : Half) : Statement (.gen imm) := of_packWord _
theorem keydes (imm : Half) : Statement (.keydes imm) := of_packWord _
theorem key3des (imm : Half) : Statement (.key3des imm) := of_packWord _
theorem keyaes (imm : Half) : Statement (.keyaes imm) := of_packWord _
theorem geniv (imm : Half) : Statement (.geniv imm) := of_packWord _
theorem genkeyUndef (cls : Byte) (imm : Half) : Statement (.genkeyUndef cls imm) := of_packWord _
theorem pad (imm : Half) : Statement (.pad imm) := of_packWord _
theorem unpad : Statement .unpad := of_packWord _
theorem clr : Statement .clr := of_packWord _

end Sys2Proof.Laws.EncodeFields
end

