-- ==== Sys2Proof/Laws/Step.lean ====
section
/-! SUPPORT. What a command, a line of the script and a step can do, said once: every later proof about them starts from
these cases. -/

namespace Sys2Proof.Laws

open Sys2Proof.Machine

/-! ### A command -/

/-- The draws of a command, whatever OBUF held before: some were made, and only OBUF, RNGOUT and the entropy source's
side of the run changed. -/
theorem drawLoop_shape (n k : Nat) (s : State) : ∃ b m d v j, drawLoop n k s = (b, afterDraws s m d v j) := by
  induction n generalizing k s with
  | zero => exact ⟨true, s.obuf, s.rngData, s.rngValid, 0, rfl⟩
  | succ n ih =>
    rw [drawLoop, entropyDraw_eq]
    cases s.nthDraw 0 with
    | unavailable => exact ⟨false, s.obuf, s.rngData, s.rngValid, 1, rfl⟩
    | byte c =>
      obtain ⟨b, m, d, v, j, he⟩ := ih (k + 1) (deliver k c (s.setEntropy (s.answers.drop 1) (s.draws + 1)))
      refine ⟨b, m, d, v, j + 1, ?_⟩
      simp only []
      rw [he]
      simp [afterDraws, deliver_eq, State.setObuf, State.setRngout, State.setEntropy, Nat.add_assoc, Nat.add_comm 1]

/-- What the entropy source's side of the run is after `n` draws. -/
def drew (n : Nat) (s : State) : State := s.setEntropy (s.answers.drop n) (s.draws + n)

/-- A command ends by `raise`, by `complete` of a result that fits, or by CLR's own end. -/
inductive CommandEnd (s : State) : State → Prop where
  | failed (f : Failure) (n : Nat) : CommandEnd s (raise f (drew n s))
  | completed (r : List Byte) (n : Nat) : r.length ≤ s.cap → CommandEnd s (complete r (drew n s))
  | cleared : CommandEnd s (clearEngine s)

theorem genBytes_ends (n : Nat) (s : State) : CommandEnd s (genBytes n s) := by
  rw [genBytes]
  split
  · exact .failed _ 0
  · next hc =>
    obtain ⟨b, m, d, v, j, he⟩ := drawLoop_shape n 0 s
    rw [he]
    cases b with
    | true => exact .completed (m.readRange 0 n) j (by simpa using hc)
    | false => exact .failed _ j

theorem generate_ends (len : Option Nat) (s : State) : CommandEnd s (generate len s) := by
  cases len with
  | none => exact .failed _ 0
  | some n => exact genBytes_ends n s

theorem padCommand_ends (imm : Half) (s : State) : CommandEnd s (padCommand imm s) := by
  rw [padCommand]
  split
  · exact .failed _ 0
  · next b _ =>
    simp only [padInput]
    split
    · exact .failed _ 0
    · split
      · exact .failed _ 0
      · exact .completed _ 0 (by simp; omega)

theorem unpadCommand_ends (s : State) : CommandEnd s (unpadCommand s) := by
  simp only [unpadCommand]
  split
  · exact .failed _ 0
  · split
    · exact .completed _ 0 (by simp; omega)
    · exact .failed _ 0

/-- Every command answers a next state, and ends in one of the three ways. -/
theorem exec_ends (i : Instr) (s : State) : ∃ t, exec i s = .next t ∧ CommandEnd s t := by
  cases i with
  | gen imm => exact ⟨_, rfl, generate_ends _ s⟩
  | keydes imm => exact ⟨_, rfl, generate_ends _ s⟩
  | key3des imm => exact ⟨_, rfl, generate_ends _ s⟩
  | keyaes imm => exact ⟨_, rfl, generate_ends _ s⟩
  | geniv imm => exact ⟨_, rfl, generate_ends _ s⟩
  | genkeyUndef cls imm => exact ⟨_, rfl, .failed _ 0⟩
  | pad imm => exact ⟨_, rfl, padCommand_ends imm s⟩
  | unpad => exact ⟨_, rfl, unpadCommand_ends s⟩
  | clr => exact ⟨_, rfl, .cleared⟩

/-- A write of CMD answers a next state whatever the word. -/
theorem writeCmd_ends (w : Word) (s : State) : ∃ t, writeCmd w s = .next t ∧ CommandEnd s t := by
  rw [writeCmd]
  cases decode w with
  | command i => exact exec_ends i s
  | illegal why => exact ⟨_, rfl, .failed .illegalCommand 0⟩

/-! ### A line of the script -/

/-- What a line can leave, the rest of the script standing in the state. -/
inductive LineEnd (s : State) : State → Prop where
  | returned (v : ReadValue) : LineEnd s (s.setOutputs (s.outputs ++ [v]))
  | wroteIlen (v : Half) : LineEnd s (s.setIlen v)
  | wroteByte (i : Nat) (v : Byte) : i < s.cap → LineEnd s (s.setIbuf (s.ibuf.write i v))
  | ranCommand (t : State) : CommandEnd s t → LineEnd s t
  | expanded (ls : List ScriptLine) : LineEnd s (s.setScript ls)
  | wasReset : LineEnd s (clearEngine s)

theorem next_inj {s t : State} (h : (Host.Outcome.next s : Host.Outcome State Fault Refusal) = .next t) : s = t := by
  injection h

theorem readRegister_end {size width : Nat} {v : ReadValue} {s t : State} (h : readRegister size width v s = .next t) :
    LineEnd s t := by
  rw [readRegister] at h
  split at h
  · rw [← next_inj h]
    exact .returned v
  · cases h

theorem readBuffer_end {m : Memory} {index width : Nat} {s t : State} (h : readBuffer m index width s = .next t) :
    LineEnd s t := by
  rw [readBuffer] at h
  split at h
  · cases h
  · split at h
    · rw [← next_inj h]
      exact .returned _
    · cases h

theorem hostRead_end {space : Space} {index width : Nat} {s t : State} (h : hostRead space index width s = .next t) :
    LineEnd s t := by
  cases space with
  | reg =>
    simp only [hostRead] at h
    split at h
    · cases h
    · exact readRegister_end h
    · exact readRegister_end h
    · exact readRegister_end h
    · exact readRegister_end h
    · cases h
  | ibuf => exact readBuffer_end h
  | obuf => exact readBuffer_end h

theorem writeCmd_end {w : Word} {s t : State} (h : writeCmd w s = .next t) : LineEnd s t := by
  obtain ⟨t', he, hc⟩ := writeCmd_ends w s
  rw [he] at h
  rw [← next_inj h]
  exact .ranCommand t' hc

theorem hostWrite_end {space : Space} {index width value : Nat} {s t : State}
    (h : hostWrite space index width value s = .next t) : LineEnd s t := by
  cases space with
  | reg =>
    simp only [hostWrite] at h
    split at h
    · split at h
      · split at h
        · exact writeCmd_end h
        · cases h
      · cases h
    · cases h
    · split at h
      · split at h
        · rw [← next_inj h]
          exact .wroteIlen _
        · cases h
      · cases h
    · cases h
    · cases h
    · cases h
  | ibuf =>
    simp only [hostWrite] at h
    split at h
    · cases h
    · next hi =>
      split at h
      · split at h
        · rw [← next_inj h]
          exact .wroteByte _ _ (by omega)
        · cases h
      · cases h
  | obuf => cases h

/-- What a line of the script can do. -/
theorem performLine_end {l : ScriptLine} {s t : State} (h : performLine l s = .next t) : LineEnd s t := by
  cases l with
  | access a =>
    cases a with
    | read space index width => exact hostRead_end h
    | write space index width value => exact hostWrite_end h
  | command i => exact writeCmd_end h
  | load bytes => rw [← next_inj h]; exact .expanded _
  | readout => rw [← next_inj h]; exact .expanded _
  | copyback => rw [← next_inj h]; exact .expanded _
  | reset => rw [← next_inj h]; exact .wasReset

/-! ### The lines pseudo-operations expand to -/

theorem performLine_writeCmd (w : Word) (s : State) : performLine (lineWriteCmd w) s = writeCmd w s := by
  have h := w.isLt
  simp [performLine, lineWriteCmd, performAccess, hostWrite, h]

theorem performLine_writeIlen {v : Nat} (s : State) (h : v < 2 ^ 16) :
    performLine (lineWriteIlen v) s = .next (s.setIlen (BitVec.ofNat 16 v)) := by
  simp only [performLine, lineWriteIlen, performAccess, hostWrite]
  rw [if_pos h]
  simp

theorem performLine_writeByte {i : Nat} (b : Byte) (s : State) (h : i < s.cap) :
    performLine (lineWriteByte i b) s = .next (s.setIbuf (s.ibuf.write i b)) := by
  have hb := b.isLt
  simp [performLine, lineWriteByte, performAccess, hostWrite, Nat.not_le.2 h, hb]

theorem performLine_readResult {i : Nat} (s : State) (h : i < s.cap) :
    performLine (lineReadResult i) s = .next (s.setOutputs (s.outputs ++ [.byte (s.obuf.read i)])) := by
  simp [performLine, lineReadResult, performAccess, hostRead, readBuffer, returned, Nat.not_le.2 h]

/-! ### A step -/

theorem step_of_script {s : State} {l : ScriptLine} {rest : List ScriptLine} (h : s.script = l :: rest) :
    step s = performLine l (s.setScript rest) := by
  rw [step, nextLine, h]

theorem step_of_no_line {s : State} (h : s.script = []) : step s = .next s := by
  rw [step, nextLine, h]

/-- What a step can do: nothing when the script is at its end, else what its first line does. -/
theorem step_end {s t : State} (h : step s = .next t) :
    t = s ∨ ∃ l rest, s.script = l :: rest ∧ LineEnd (s.setScript rest) t := by
  cases hs : s.script with
  | nil =>
    rw [step_of_no_line hs] at h
    exact .inl (next_inj h).symm
  | cons l rest =>
    rw [step_of_script hs] at h
    exact .inr ⟨l, rest, rfl, performLine_end h⟩

/-! ### Several steps -/

theorem core_run_succ {M : Host.Core} {n : Nat} {s t : M.State} (h : M.step s = .next t) :
    M.run (n + 1) s = M.run n t := by
  simp only [Host.Core.run, h]

theorem run_succ {n : Nat} {s t : State} (h : step s = .next t) :
    Host.Core.run Sys2Proof.core (n + 1) s = Host.Core.run Sys2Proof.core n t :=
  core_run_succ (M := Sys2Proof.core) h

/-- One line that answers a next state, at the head of a script. -/
theorem run_line {n : Nat} {s t : State} {l : ScriptLine} {rest : List ScriptLine} (hs : s.script = l :: rest)
    (h : performLine l (s.setScript rest) = .next t) :
    Host.Core.run Sys2Proof.core (n + 1) s = Host.Core.run Sys2Proof.core n t :=
  run_succ ((step_of_script hs).trans h)

end Sys2Proof.Laws
end

