-- ==== Sys2Proof/Tests/Slice0.lean ====
section
/-! SUPPORT. The model's own tests, each expected value from spec/ (the vector of 95_test_vectors it comes from is named),
and a witness for the hypotheses of every statement that has some. -/

namespace Sys2Proof.Tests

open Sys2Proof.Machine

/-! ### Small states -/

/-- An engine of capacity 255 with a sequence loaded as LOAD leaves it. -/
def loaded (bytes : List Byte) : State :=
  { State.resetOf 255#16 with ibuf := Memory.ofBytes bytes, ilen := BitVec.ofNat 16 bytes.length }

/-- An engine of a given capacity with the answers of the entropy source in its run. -/
def answered (capacity : Half) (answers : List Draw) : State :=
  { State.resetOf capacity with answers := answers }

/-- An engine with a script. -/
def scripted (lines : List ScriptLine) : State := { State.resetOf 255#16 with script := lines }

def nextOf (o : Host.Outcome State Fault Refusal) : Option State :=
  match o with
  | .next t => some t
  | .fault _ => none
  | .refused _ => none

def refusalOf (o : Host.Outcome State Fault Refusal) : Option Refusal :=
  match o with
  | .next _ => none
  | .fault _ => none
  | .refused r => some r

/-- STATUS, OLEN and the first `n` bytes of OBUF. -/
def outcome (n : Nat) (o : Host.Outcome State Fault Refusal) : Option (Byte × Half × List Byte) :=
  (nextOf o).map (fun t => (t.status, t.olen, t.obuf.readRange 0 n))

/-! ### Well-formedness -/

/-- A class that R50 gives to a key class is no undefined class. -/
theorem test_wellFormed_refuses_class_3 : (Instr.genkeyUndef 3#8 0#16).wellFormed = false := by decide
theorem test_wellFormed_accepts_class_4 : (Instr.genkeyUndef 4#8 0#16).wellFormed = true := by decide

/-! ### Decoding: words written out from the fields of R47 -/

/-- opc 00000001, cls 00000000, imm 0000000000000100. -/
theorem test_decode_gen : decode 0b00000001_00000000_0000000000000100#32 = .command (.gen 4#16) := by decide
theorem test_decode_keydes : decode 0b00000010_00000000_0000000000000000#32 = .command (.keydes 0#16) := by decide
theorem test_decode_key3des : decode 0b00000010_00000001_0000000000000011#32 = .command (.key3des 3#16) := by decide
theorem test_decode_keyaes : decode 0b00000010_00000010_0000000100000000#32 = .command (.keyaes 256#16) := by decide
theorem test_decode_geniv : decode 0b00000010_00000011_0000000000010000#32 = .command (.geniv 16#16) := by decide
theorem test_decode_genkeyUndef :
    decode 0b00000010_11111111_0000000000010000#32 = .command (.genkeyUndef 255#8 16#16) := by decide
theorem test_decode_pad : decode 0b00010000_00000000_0000000011111111#32 = .command (.pad 255#16) := by decide
theorem test_decode_unpad : decode 0b00010001_00000000_0000000000000000#32 = .command .unpad := by decide
theorem test_decode_clr : decode 0b00100000_00000000_0000000000000000#32 = .command .clr := by decide

/-- DC1, DC2, DC7, DC9, DC12, DC13, DC15. -/
theorem test_decode_illegal :
    decode 0x00000000#32 = .illegal .undefinedOpcode ∧ decode 0xFFFFFFFF#32 = .illegal .undefinedOpcode ∧
    decode 0x21000000#32 = .illegal .undefinedOpcode ∧ decode 0x01010004#32 = .illegal .reservedCls ∧
    decode 0x11000001#32 = .illegal .reservedImm ∧ decode 0x11010000#32 = .illegal .reservedCls ∧
    decode 0x20FF0000#32 = .illegal .reservedCls := by decide

theorem test_decodeTableWord : decodeTableWord 32 0x02010000 = some (.key3des 0#16) := by decide

/-! ### Commands -/

/-- KG2. -/
theorem test_gen_four :
    outcome 5 (exec (.gen 4#16) (answered 255#16 [.byte 0xDE, .byte 0xAD, .byte 0xBE, .byte 0xEF])) =
      some (0x10#8, 4#16, [0xDE, 0xAD, 0xBE, 0xEF, 0x00]) := by decide
/-- KG25, X8: the delivered byte is wiped, and exactly two draws were made. -/
theorem test_gen_unanswered :
    outcome 3 (exec (.gen 3#16) (answered 255#16 [.byte 0x11, .unavailable, .byte 0x21])) =
      some (0x13#8, 0#16, [0x00, 0x00, 0x00]) ∧
    (nextOf (exec (.gen 3#16) (answered 255#16 [.byte 0x11, .unavailable, .byte 0x21]))).map (fun t => t.answers) =
      some [.byte 0x21] := by decide
/-- KG8. -/
theorem test_keydes :
    outcome 8 (exec (.keydes 0#16) (answered 255#16
      [.byte 0x01, .byte 0x23, .byte 0x45, .byte 0x67, .byte 0x89, .byte 0xAB, .byte 0xCD, .byte 0xEF])) =
      some (0x10#8, 8#16, [0x01, 0x23, 0x45, 0x67, 0x89, 0xAB, 0xCD, 0xEF]) := by decide
/-- KG9. -/
theorem test_keydes_option : outcome 1 (exec (.keydes 1#16) State.reset) = some (0x11#8, 0#16, [0x00]) := by decide
/-- KG10: option 1 is the shortest key. -/
theorem test_key3des_option_1 :
    outcome 9 (exec (.key3des 1#16) (answered 255#16 (List.replicate 9 (.byte 0x77)))) =
      some (0x10#8, 8#16, [0x77, 0x77, 0x77, 0x77, 0x77, 0x77, 0x77, 0x77, 0x00]) := by decide
/-- KG14. -/
theorem test_key3des_option_4 : outcome 0 (exec (.key3des 4#16) State.reset) = some (0x11#8, 0#16, []) := by decide
/-- KG15. -/
theorem test_keyaes_128 :
    (outcome 0 (exec (.keyaes 128#16) (answered 255#16 (List.replicate 17 (.byte 0x77))))) =
      some (0x10#8, 16#16, []) := by decide
/-- KG19: the byte length where the bit length belongs. -/
theorem test_keyaes_16 : outcome 0 (exec (.keyaes 16#16) State.reset) = some (0x11#8, 0#16, []) := by decide
/-- KG20, cut to three bytes. -/
theorem test_geniv :
    outcome 3 (exec (.geniv 3#16) (answered 255#16 [.byte 0xA0, .byte 0xA1, .byte 0xA2])) =
      some (0x10#8, 3#16, [0xA0, 0xA1, 0xA2]) := by decide
/-- KG23: beyond the capacity, here 2048. -/
theorem test_geniv_beyond : outcome 0 (exec (.geniv 2049#16) State.reset) = some (0x15#8, 0#16, []) := by decide
/-- DC16. -/
theorem test_genkeyUndef : outcome 0 (exec (.genkeyUndef 4#8 0#16) State.reset) = some (0x11#8, 0#16, []) := by decide
/-- S1. -/
theorem test_pad_hola :
    outcome 9 (exec (.pad 8#16) (loaded [0x48, 0x4F, 0x4C, 0x41])) =
      some (0x10#8, 8#16, [0x48, 0x4F, 0x4C, 0x41, 0x04, 0x04, 0x04, 0x04, 0x00]) := by decide
/-- PD2, and PD11 (block size 256). -/
theorem test_pad_block_sizes :
    outcome 4 (exec (.pad 1#16) (loaded [0xAA, 0xBB])) = some (0x10#8, 3#16, [0xAA, 0xBB, 0x01, 0x00]) ∧
    outcome 0 (exec (.pad 256#16) (loaded [0xAA, 0xBB])) = some (0x11#8, 0#16, []) := by decide
/-- UN8, and UN13 (the empty result, a success). -/
theorem test_unpad :
    outcome 2 (exec .unpad (loaded [0x04, 0x03, 0x03, 0x03])) = some (0x10#8, 1#16, [0x04, 0x00]) ∧
    outcome 1 (exec .unpad (loaded [0x04, 0x04, 0x04, 0x04])) = some (0x10#8, 0#16, [0x00]) := by decide
/-- UN1, UN2, UN9, UN11. -/
theorem test_unpad_invalid :
    outcome 0 (exec .unpad (loaded [])) = some (0x12#8, 0#16, []) ∧
    outcome 0 (exec .unpad (loaded [0x00])) = some (0x12#8, 0#16, []) ∧
    outcome 0 (exec .unpad (loaded [0x05, 0x05, 0x05, 0x05])) = some (0x12#8, 0#16, []) ∧
    outcome 0 (exec .unpad (loaded [0x48, 0x4F, 0x4C, 0x41, 0x03, 0x04, 0x04, 0x04])) =
      some (0x12#8, 0#16, []) := by decide
/-- H5: CLR after LOAD leaves the reset state. -/
theorem test_clr : nextOf (exec .clr (loaded [0x48, 0x4F, 0x4C, 0x41])) = some (State.resetOf 255#16) := by decide

/-! ### Steps: host accesses -/

/-- H2: WRB does not move ILEN. -/
theorem test_step_writeByte :
    (nextOf (step (scripted [.access (.write .ibuf 5 1 0x7F)]))).map (fun t => (t.ibuf, t.ilen)) =
      some ([(5, 0x7F#8)], 0#16) := by decide
/-- H3: ILEN is not checked against CAP on write. -/
theorem test_step_writeIlen :
    (nextOf (step (scripted [.access (.write .reg 2 2 65535)]))).map (fun t => (t.ilen, t.status)) =
      some (65535#16, 0x00#8) := by decide
/-- H1: RD CAPR. -/
theorem test_step_readCapr :
    (nextOf (step (scripted [.access (.read .reg 4 2)]))).map (fun t => t.outputs) = some [.half 255#16] := by decide
/-- H8: a malformed CLR wipes nothing of the input. -/
theorem test_step_malformed_clr :
    (nextOf (step { loaded [0x01, 0x02] with script := [.access (.write .reg 0 4 0x20000001)] })).map
      (fun t => (t.status, t.ilen, t.ibuf)) = some (0x14#8, 2#16, [(0, 0x01#8), (1, 0x02#8)]) := by decide
/-- R38: one reserved access of each kind. -/
theorem test_step_reserved :
    refusalOf (step (scripted [.access (.read .reg 0 4)])) = some .readOfCmd ∧
    refusalOf (step (scripted [.access (.write .reg 1 1 0)])) = some .writeOfReadOnlyRegister ∧
    refusalOf (step (scripted [.access (.read .reg 5 2)])) = some .reservedRegister ∧
    refusalOf (step (scripted [.access (.read .obuf 255 1)])) = some .indexBeyondCapacity ∧
    refusalOf (step (scripted [.access (.write .obuf 0 1 0)])) = some .writeOfOutputBuffer ∧
    refusalOf (step (scripted [.access (.read .reg 2 1)])) = some .wrongWidth ∧
    refusalOf (step (scripted [.access (.write .ibuf 0 1 256)])) = some .valueTooWide := by decide
/-- R58: the expansion of LOAD. -/
theorem test_step_load :
    (nextOf (step (scripted [.load [0x48, 0x4F]]))).map (fun t => t.script) =
      some [.access (.write .ibuf 0 1 0x48), .access (.write .ibuf 1 1 0x4F), .access (.write .reg 2 2 2)] := by decide
/-- The word placed for the next step is the one that runs (here PAD 0: InvalidParameter). -/
theorem test_step_withFetchWord :
    outcome 0 (step (State.reset.withFetchWord 32 0x10000000)) = some (0x11#8, 0#16, []) := by decide
/-- From reset, with the entropy source free, GEN still answers a next state. -/
theorem test_step_free_draw : ∃ t, step (State.reset.withFetchWord 32 0x01000001) = .next t := ⟨_, rfl⟩

/-! ### Witnesses: encoding and steps -/

theorem witness_DecodeOfEncode : (Instr.genkeyUndef 4#8 0xFFFF#16).wellFormed = true := by decide
theorem witness_DecodedCommand : decode 0x2000_0000#32 = .command .clr := by decide
theorem witness_FirstMatchingRow : firstMatch 0x0204_0000#32 = some "GENKEY.UNDEF" := by decide
/-- One word for each way to be illegal. -/
theorem witness_IllegalWords :
    IllegalCommandWord 0x03000000#32 ∧ IllegalCommandWord 0x10010000#32 ∧ IllegalCommandWord 0x11000001#32 := by
  refine ⟨.inl ?_, .inr (.inl ?_), .inr (.inr ?_)⟩ <;> decide
theorem witness_StepRuns :
    decode 0x10000008#32 = .command (.pad 8#16) ∧ (Instr.pad 8#16).wellFormed = true ∧
    (scripted [.access (.write .reg 0 4 (0x10000008#32).toNat)]).script =
      [.access (.write .reg 0 4 (0x10000008#32).toNat)] ∧
    (scripted [.command (.pad 8#16)]).script = [.command (.pad 8#16)] := by decide
theorem witness_Quiescent : (loaded [0x01]).script = [] := by decide

/-! ### Witnesses: generation -/

/-- The answered case at the boundary n = CAP. -/
theorem witness_Gen_answered :
    (answered 2#16 [.byte 0x21, .byte 0x22]).obuf.wf = true ∧ 1 ≤ (2#16).toNat ∧
    (2#16).toNat ≤ (answered 2#16 [.byte 0x21, .byte 0x22]).cap ∧ [0x21#8, 0x22#8].length = (2#16).toNat ∧
    ∀ k (h : k < [0x21#8, 0x22#8].length),
      (answered 2#16 [.byte 0x21, .byte 0x22]).nthDraw k = .byte [0x21#8, 0x22#8][k] := by decide
theorem witness_Gen_beyond : (answered 2#16 []).cap < (3#16).toNat := by decide
/-- The last draw of CAP draws unanswered. -/
theorem witness_Gen_unanswered :
    (2#16).toNat ≤ (answered 2#16 [.byte 0x21, .unavailable]).cap ∧ 1 < (2#16).toNat ∧
    (∀ j, j < 1 → ∃ b, (answered 2#16 [.byte 0x21, .unavailable]).nthDraw j = .byte b) ∧
    (answered 2#16 [.byte 0x21, .unavailable]).nthDraw 1 = .unavailable := by
  refine ⟨by decide, by decide, fun j hj => ⟨0x21#8, ?_⟩, by decide⟩
  rw [show j = 0 by omega]
  rfl
theorem witness_Gen_words :
    opcOf 0x01000004#32 = 0x01#8 ∧ clsOf 0x01000004#32 = 0#8 ∧ opcOf 0x01010004#32 = 0x01#8 ∧
    clsOf 0x01010004#32 ≠ 0#8 := by decide
/-- GENIV has the cases of GEN; its word has class 3. -/
theorem witness_Geniv_word : opcOf 0x02030010#32 = 0x02#8 ∧ clsOf 0x02030010#32 = 0x03#8 := by decide

/-- At the least legal capacity, `n` bytes 0x5A answered. -/
def keySource (n : Nat) : State := answered 255#16 (List.replicate n (.byte 0x5A))

theorem keySource_draws (n : Nat) : ∀ k (h : k < (List.replicate n 0x5A#8).length),
    (keySource n).nthDraw k = .byte (List.replicate n 0x5A#8)[k] := by
  intro k h
  have hk : k < n := by simpa using h
  simp [State.nthDraw, keySource, answered, hk]

/-- The answered case of KEYDES (8), KEY3DES (8, 16, 24) and KEYAES (16, 24, 32): the premises hold for every `n`. -/
theorem witness_keys_answered (n : Nat) :
    (keySource n).obuf.wf = true ∧ Config.minCap ≤ (keySource n).cap ∧ (List.replicate n 0x5A#8).length = n ∧
    ∀ k (h : k < (List.replicate n 0x5A#8).length), (keySource n).nthDraw k = .byte (List.replicate n 0x5A#8)[k] :=
  ⟨rfl, Nat.le_refl 255, List.length_replicate, keySource_draws n⟩
theorem witness_key_lengths :
    (1#16, 8) ∈ [(1#16, 8), (2#16, 16), (3#16, 24)] ∧ (3#16, 24) ∈ [(1#16, 8), (2#16, 16), (3#16, 24)] ∧
    (128#16, 16) ∈ [(128#16, 16), (192#16, 24), (256#16, 32)] ∧
    (256#16, 32) ∈ [(128#16, 16), (192#16, 24), (256#16, 32)] := by decide
/-- Option 0 and 4, bit length 0 and 129: just outside the domains. -/
theorem witness_key_options_outside :
    1#16 ≠ 0#16 ∧ (0#16 ≠ 1#16 ∧ 0#16 ≠ 2#16 ∧ 0#16 ≠ 3#16) ∧ (4#16 ≠ 1#16 ∧ 4#16 ≠ 2#16 ∧ 4#16 ≠ 3#16) ∧
    (129#16 ≠ 128#16 ∧ 129#16 ≠ 192#16 ∧ 129#16 ≠ 256#16) := by decide
/-- The first draw of a key unanswered. -/
theorem witness_keys_unanswered :
    Config.minCap ≤ (answered 255#16 [.unavailable]).cap ∧ 0 < 8 ∧
    (∀ j, j < 0 → ∃ b, (answered 255#16 [.unavailable]).nthDraw j = .byte b) ∧
    (answered 255#16 [.unavailable]).nthDraw 0 = .unavailable :=
  ⟨by decide, by decide, fun j hj => absurd hj (Nat.not_lt_zero j), rfl⟩
theorem witness_key_words :
    opcOf 0x02000000#32 = 0x02#8 ∧ clsOf 0x02000000#32 = 0x00#8 ∧ opcOf 0x02010003#32 = 0x02#8 ∧
    clsOf 0x02010003#32 = 0x01#8 ∧ opcOf 0x02020100#32 = 0x02#8 ∧ clsOf 0x02020100#32 = 0x02#8 ∧
    opcOf 0x02040000#32 = 0x02#8 ∧ 4 ≤ (clsOf 0x02040000#32).toNat := by decide
theorem witness_GenkeyUndefined : 4 ≤ (4#8).toNat ∧ 4 ≤ (255#8).toNat := by decide
/-- A generation command that succeeds and one that fails. -/
theorem witness_GeneratedLengths :
    generates (.gen 1#16) = true ∧
    (∃ t, exec (.gen 1#16) (answered 255#16 [.byte 0x7F]) = .next t ∧ t.err = 0#4) ∧
    ∃ t, exec (.gen 0#16) State.reset = .next t ∧ t.err ≠ 0#4 :=
  ⟨rfl, ⟨_, rfl, by decide⟩, ⟨_, rfl, by decide⟩⟩
theorem witness_OutputRegister : (loaded []).obuf.wf = true := by decide
/-- A command that draws and one that does not. -/
theorem witness_OnlyGenerationCommandsDraw :
    (∃ t, exec (.gen 1#16) (answered 255#16 [.byte 0x7F]) = .next t ∧ t.draws = 1) ∧
    ∃ t, exec .unpad (loaded []) = .next t ∧ t.draws = 0 :=
  ⟨⟨_, rfl, by decide⟩, ⟨_, rfl, by decide⟩⟩
theorem witness_TheSameKeyTwice :
    (answered 255#16 (List.replicate 16 (.byte 0x5A))).obuf.wf = true ∧
    Config.minCap ≤ (answered 255#16 (List.replicate 16 (.byte 0x5A))).cap ∧ (List.replicate 8 0x5A#8).length = 8 ∧
    (answered 255#16 (List.replicate 16 (.byte 0x5A))).answers =
      (List.replicate 8 0x5A#8).map Draw.byte ++ ((List.replicate 8 0x5A#8).map Draw.byte ++ []) := by decide

/-! ### Witnesses: PAD and UNPAD -/

/-- PAD with the result exactly CAP long, the largest block size, and the smallest. -/
theorem witness_Pad_fits :
    (1 ≤ (8#16).toNat ∧ (8#16).toNat ≤ 255 ∧
      ({ loaded [0x01, 0x02, 0x03, 0x04] with capr := 8#16 } : State).ilen.toNat +
        ((8#16).toNat - ({ loaded [0x01, 0x02, 0x03, 0x04] with capr := 8#16 } : State).ilen.toNat % (8#16).toNat) ≤
      ({ loaded [0x01, 0x02, 0x03, 0x04] with capr := 8#16 } : State).cap) ∧
    (1 ≤ (255#16).toNat ∧ (255#16).toNat ≤ 255 ∧
      (loaded []).ilen.toNat + ((255#16).toNat - (loaded []).ilen.toNat % (255#16).toNat) ≤ (loaded []).cap) := by
  decide
theorem witness_Pad_block_size : (0#16).toNat = 0 ∧ 255 < (256#16).toNat := by decide
/-- ILEN above CAP, and ILEN within CAP with the result beyond it. -/
theorem witness_Pad_beyond :
    ({ loaded [] with ilen := 256#16 } : State).cap < ({ loaded [] with ilen := 256#16 } : State).ilen.toNat ∧
    ({ loaded [] with ilen := 255#16 } : State).cap <
      ({ loaded [] with ilen := 255#16 } : State).ilen.toNat +
        ((8#16).toNat - ({ loaded [] with ilen := 255#16 } : State).ilen.toNat % (8#16).toNat) := by decide
theorem witness_Pad_words :
    opcOf 0x10000008#32 = 0x10#8 ∧ clsOf 0x10000008#32 = 0#8 ∧ opcOf 0x10010008#32 = 0x10#8 ∧
    clsOf 0x10010008#32 ≠ 0#8 := by decide
/-- A PAD that succeeds (PadLaws, UnpadInvertsPad). -/
theorem witness_Pad_succeeds :
    ∃ t, exec (.pad 4#16) (loaded [0x48, 0x4F, 0x4C, 0x41]) = .next t ∧ t.err = 0#4 ∧
      (loaded [0x48, 0x4F, 0x4C, 0x41]).ilen.toNat % (4#16).toNat = 0 :=
  ⟨_, rfl, by decide, by decide⟩
/-- A copy of a result: UnpadInvertsPad's premises on the second state. -/
theorem witness_UnpadInvertsPad :
    ∃ t, exec (.pad 4#16) (loaded [0x48]) = .next t ∧ t.err = 0#4 ∧
      (loaded [0x48, 0x03, 0x03, 0x03]).capr = (loaded [0x48]).capr ∧
      (loaded [0x48, 0x03, 0x03, 0x03]).ilen = t.olen ∧
      ∀ i, i < t.olen.toNat → (loaded [0x48, 0x03, 0x03, 0x03]).ibuf.read i = t.obuf.read i :=
  ⟨_, rfl, by decide, by decide, by decide, by decide⟩
theorem witness_Pad_short : (loaded []).ilen.toNat + 255 ≤ (loaded []).cap := by decide

/-- N = L, and N = 1. -/
theorem witness_Unpad_valid :
    (loaded [0x02, 0x02]).ilen.toNat ≤ (loaded [0x02, 0x02]).cap ∧
    ValidPadding (loaded [0x02, 0x02]).ibuf (loaded [0x02, 0x02]).ilen.toNat ∧
    ValidPadding (loaded [0x07, 0x01]).ibuf (loaded [0x07, 0x01]).ilen.toNat :=
  ⟨by decide, (Laws.paddingValid_iff _ _).1 (by decide), (Laws.paddingValid_iff _ _).1 (by decide)⟩
theorem witness_Unpad_beyond :
    ({ loaded [] with ilen := 256#16 } : State).cap < ({ loaded [] with ilen := 256#16 } : State).ilen.toNat := by
  decide
/-- One input for each check that fails (UnpadRule, UnpadFailsOneWay). -/
theorem witness_Unpad_invalid :
    ¬ ValidPadding (loaded []).ibuf (loaded []).ilen.toNat ∧
    ¬ ValidPadding (loaded [0x02]).ibuf (loaded [0x02]).ilen.toNat ∧
    ¬ ValidPadding (loaded [0x01, 0x02]).ibuf (loaded [0x01, 0x02]).ilen.toNat ∧
    (loaded [0x01, 0x02]).ilen.toNat ≤ (loaded [0x01, 0x02]).cap := by
  refine ⟨?_, ?_, ?_, by decide⟩ <;> rw [← Laws.paddingValid_iff] <;> decide
theorem witness_Unpad_words :
    opcOf 0x11000000#32 = 0x11#8 ∧ clsOf 0x11000000#32 = 0#8 ∧ immOf 0x11000000#32 = 0#16 ∧
    opcOf 0x11010000#32 = 0x11#8 ∧ clsOf 0x11010000#32 ≠ 0#8 ∧ opcOf 0x11000001#32 = 0x11#8 ∧
    immOf 0x11000001#32 ≠ 0#16 := by decide
/-- UN22: 255 bytes 00, then 02 02. -/
def witnessOfR82 : State :=
  { State.resetOf 257#16 with ibuf := [(255, 0x02#8), (256, 0x02#8)], ilen := 257#16 }
theorem witness_UnpadKnowsNoBlockSize :
    witnessOfR82.ilen = 257#16 ∧ 257 ≤ witnessOfR82.cap ∧ (∀ i, i < 255 → witnessOfR82.ibuf.read i = 0x00#8) ∧
    witnessOfR82.ibuf.read 255 = 0x02#8 ∧ witnessOfR82.ibuf.read 256 = 0x02#8 := by
  refine ⟨rfl, Nat.le_refl 257, fun i hi => ?_, by decide, by decide⟩
  simp [witnessOfR82, Memory.read, unlistedByte, show ¬ 255 = i by omega, show ¬ 256 = i by omega]
/-- A PaddedBuffer with N < B, and what UNPAD leaves of it loaded again. -/
theorem witness_PadInvertsUnpad :
    (loaded [0x41, 0x03, 0x03, 0x03]).ilen.toNat ≤ (loaded [0x41, 0x03, 0x03, 0x03]).cap ∧
    IsPaddedBuffer (4#16).toNat (loaded [0x41, 0x03, 0x03, 0x03]).ibuf
      (loaded [0x41, 0x03, 0x03, 0x03]).ilen.toNat ∧
    ∃ t, exec .unpad (loaded [0x41, 0x03, 0x03, 0x03]) = .next t ∧
      (loaded [0x41]).capr = (loaded [0x41, 0x03, 0x03, 0x03]).capr ∧ (loaded [0x41]).ilen = t.olen ∧
      ∀ i, i < t.olen.toNat → (loaded [0x41]).ibuf.read i = t.obuf.read i := by
  refine ⟨by decide, ⟨by decide, by decide, by decide, by decide, by decide, by decide, ?_⟩,
    ⟨_, rfl, by decide, by decide, by decide⟩⟩
  exact ((Laws.paddingValid_iff (loaded [0x41, 0x03, 0x03, 0x03]).ibuf 4).1 (by decide)).2.2.2

/-! ### Witnesses: CLR, reset, failures -/

theorem witness_Clr_words :
    opcOf 0x20000000#32 = 0x20#8 ∧ clsOf 0x20000000#32 = 0#8 ∧ immOf 0x20000000#32 = 0#16 ∧
    clsOf 0x20FF0000#32 ≠ 0#8 ∧ immOf 0x20000001#32 ≠ 0#16 := by decide
theorem witness_Reset : (scripted [.reset, .readout]).script = .reset :: [.readout] := by decide
/-- An operand outside its domain for each command that has a domain (InvalidParameter, FailurePriority). -/
theorem witness_OutOfDomain :
    OutOfDomain (.gen 0#16) ∧ OutOfDomain (.keydes 1#16) ∧ OutOfDomain (.key3des 4#16) ∧
    OutOfDomain (.keyaes 16#16) ∧ OutOfDomain (.geniv 0#16) ∧ OutOfDomain (.genkeyUndef 4#8 0#16) ∧
    OutOfDomain (.pad 256#16) ∧ ¬ OutOfDomain (.pad 255#16) := by
  refine ⟨?_, ?_, ?_, ?_, ?_, trivial, ?_, ?_⟩ <;> unfold OutOfDomain <;> decide
/-- InvalidPadding and EntropySourceError do occur. -/
theorem witness_FailuresOccur :
    (∃ t, exec .unpad (loaded []) = .next t ∧ t.err = 2#4) ∧
    ∃ t, exec (.gen 1#16) (answered 255#16 [.unavailable]) = .next t ∧ t.err = 3#4 :=
  ⟨⟨_, rfl, by decide⟩, ⟨_, rfl, by decide⟩⟩
theorem witness_CommandsEnd : Instr.unpad ≠ .clr := by decide
/-- Two states that differ in the earlier result and in a byte of IBUF beyond ILEN. -/
theorem witness_OutcomeDependsOnTheInputsOnly :
    ({ loaded [0x01] with ibuf := [(0, 0x01#8), (9, 0x09#8)], obuf := [(0, 0x07#8)], olen := 1#16 } : State).obuf.wf =
      true ∧ (loaded [0x01]).obuf.wf = true ∧ (loaded [0x01]).ilen = 1#16 ∧
    (∀ k, k < 1 → k < 255 → Memory.read [(0, 0x01#8), (9, 0x09#8)] k = (loaded [0x01]).ibuf.read k) ∧
    (∃ t, exec (.pad 4#16)
      { loaded [0x01] with ibuf := [(0, 0x01#8), (9, 0x09#8)], obuf := [(0, 0x07#8)], olen := 1#16 } = .next t) ∧
    ∃ t, exec (.pad 4#16) (loaded [0x01]) = .next t :=
  ⟨by decide, by decide, by decide, by decide, ⟨_, rfl⟩, ⟨_, rfl⟩⟩
/-- Two states with the same answers to the draws of GEN 1. -/
theorem witness_OutcomeDependsOnTheDraws :
    Requests (.gen 1#16) 1 ∧
    (answered 255#16 [.byte 0x11, .byte 0x12]).nthDraw 0 = (answered 255#16 [.byte 0x11]).nthDraw 0 :=
  ⟨Requests.gen 1#16 (by decide), by decide⟩
/-- The words and states of R104's examples: PAD 0 with ILEN above CAP; 0x10010000; GEN above CAP. -/
theorem witness_FailurePriority :
    decode 0x10000000#32 = .command (.pad 0#16) ∧ OutOfDomain (.pad 0#16) ∧ IllegalCommandWord 0x10010000#32 ∧
    decode 0x0100EA60#32 = .command (.gen 60000#16) ∧ ¬ OutOfDomain (.gen 60000#16) ∧
    BeyondCapacity State.reset (.gen 60000#16) ∧ ¬ BeyondCapacity (loaded []) .unpad := by
  refine ⟨by decide, .inl rfl, .inr (.inl (by decide)), by decide, ?_, ⟨60000, Requests.gen 60000#16 ?_, ?_⟩, ?_⟩
  · unfold OutOfDomain; decide
  · decide
  · decide
  · unfold BeyondCapacity; decide
theorem witness_PadUnpadClrTwice : ∃ t, exec (.pad 4#16) (loaded [0x01]) = .next t := ⟨_, rfl⟩

/-! ### Witnesses: host accesses and the invariant -/

theorem witness_IlenWrite : 65535 ≤ 65535 := by decide
/-- The last byte of a buffer. -/
theorem witness_InputBuffer : (loaded [0x01]).ibuf.wf = true ∧ 254 < (loaded [0x01]).cap := by decide
theorem witness_Load :
    (scripted [.load [0x48], .readout]).ibuf.wf = true ∧ [0x48#8].length ≤ (scripted [.load [0x48]]).cap ∧
    (scripted [.load [0x48], .readout]).script = .load [0x48] :: [.readout] := by decide
/-- A state with a result in OBUF, READOUT and COPYBACK before it. -/
def withResult : State :=
  { loaded [0x48, 0x4F] with
    status := 0x10#8, olen := 4#16, obuf := Memory.ofBytes [0x48, 0x4F, 0x02, 0x02], script := [.readout, .copyback] }
theorem witness_Readout : withResult.olen.toNat ≤ withResult.cap ∧ withResult.script = .readout :: [.copyback] := by
  decide
theorem witness_Copyback :
    ({ withResult with script := [.copyback] } : State).ibuf.wf = true ∧
    ({ withResult with script := [.copyback] } : State).olen.toNat ≤ withResult.cap ∧
    ({ withResult with script := [.copyback] } : State).script = .copyback :: [] := by decide
/-- The invariant holds of a state with a result, and a step from it answers (StepKeepsTheObservableInvariant,
OutputBufferRead, CaprIsConstant). -/
theorem witness_Invariant : withResult.Inv ∧ (∃ t, step withResult = .next t) ∧ 4 < withResult.cap := by
  refine ⟨⟨by decide, by decide, fun i hi _ => ?_, by decide, by decide, by decide, by decide, by decide, by decide,
    by decide⟩, ⟨_, rfl⟩, by decide⟩
  have h : 4 ≤ i := hi
  have hr := Laws.read_ofBytes [0x48#8, 0x4F#8, 0x02#8, 0x02#8] i
  rw [List.getD_eq_getElem?_getD, List.getElem?_eq_none h] at hr
  exact hr
theorem witness_ResetMeets : Config.minCap ≤ (255#16).toNat ∧ Config.minCap ≤ (65535#16).toNat := by decide
theorem witness_ObservableStates :
    Config.minCap ≤ (255#16).toNat ∧
    ∃ t, Host.Core.run Sys2Proof.core 1
      { State.resetOf 255#16 with script := [.command .unpad], answers := [], draws := 0 } = .next t :=
  ⟨by decide, ⟨_, rfl⟩⟩
/-- One access of each of the two kinds of ReservedAccessesAreRefused. -/
theorem witness_Reserved : Reserved 255 (.read .reg 0 4) ∧ ¬ Reserved 255 (.read .reg 1 1) := by
  refine ⟨.readOfCmd 4, fun h => ?_⟩
  cases h with
  | readOfRegister _ _ h => omega
  | readBeyond _ _ _ h _ => exact h rfl
  | readWidthOfRegister _ size _ h hw =>
    cases h
    exact hw rfl
  | readWidthOfByte _ _ _ h _ => exact h rfl
theorem witness_Accesses :
    (∃ t, performAccess (.write .ibuf 254 1 0xFF) (loaded []) = .next t) ∧
    ∀ v, HostAccess.write .ibuf 254 1 0xFF ≠ .write .reg 0 4 v :=
  ⟨⟨_, rfl⟩, fun v h => by injection h with h1; cases h1⟩

end Sys2Proof.Tests
end

/-! PROOF. The invariant of every state a host can observe (10_state R26): it holds at reset, each end of a line of the
script keeps it, and so every run from reset does. -/

namespace Sys2Proof.Invariant

open Sys2Proof.Machine Sys2Proof.Laws

/-! ### The words the engine writes to STATUS -/

theorem failureCode_le (f : Failure) : (failureCode f).toNat ≤ 5 := by cases f <;> decide

theorem reserved_statusFailure (f : Failure) : (statusFailure f).extractLsb' 5 3 = 0#3 := by cases f <;> decide

theorem done_statusFailure (f : Failure) : (statusFailure f).extractLsb' 4 1 = 1#1 := by cases f <;> decide

/-! ### The three ends of a command -/

/-- A failure keeps the invariant: OLEN and OBUF are wiped, and its code is legal (60 R100, R101). -/
theorem raise_keeps_inv (f : Failure) {s : State} (h : s.Inv) : (raise f s).Inv where
  capLow := h.capLow
  olenLeCap := Nat.zero_le _
  restZero := fun i _ _ => read_zero i
  failEmpty := fun _ => rfl
  errLegal := by rw [raise_err]; exact failureCode_le f
  reservedZero := reserved_statusFailure f
  notDone := fun hd => absurd ((done_statusFailure f).symm.trans hd) (by decide)
  rngEmpty := ⟨rfl, rfl⟩
  ibufForm := h.ibufForm
  obufForm := ⟨zero_wf, rfl⟩

/-- A success whose result fits keeps the invariant: OLEN is the result's length and OBUF is 0x00 after it (60 R102). -/
theorem complete_keeps_inv {r : List Byte} {s : State} (h : s.Inv) (hr : r.length ≤ s.cap) : (complete r s).Inv := by
  have hlt : r.length < 2 ^ 16 := Nat.lt_of_le_of_lt hr s.capr.isLt
  have holen : (complete r s).olen.toNat = r.length := by
    rw [complete_olen, BitVec.toNat_ofNat, Nat.mod_eq_of_lt hlt]
  exact
    { capLow := h.capLow
      olenLeCap := holen.trans_le hr
      restZero := fun i hi _ => by
        rw [complete_obuf, read_ofBytes, List.getD_eq_default _ _ (holen ▸ hi)]
      failEmpty := fun he => absurd (complete_err r s) he
      errLegal := by rw [complete_err]; decide
      reservedZero := (by decide : statusSuccess.extractLsb' 5 3 = 0#3)
      notDone := fun hd => absurd hd (by decide : statusSuccess.extractLsb' 4 1 ≠ 0#1)
      rngEmpty := ⟨rfl, rfl⟩
      ibufForm := h.ibufForm
      obufForm := ⟨ofBytes_wf r, ofBytes_below hr⟩ }

/-- The reset values meet the invariant whatever the capacity (10_state R27). -/
theorem resetOf_inv {c : Half} (hc : Config.minCap ≤ c.toNat) : (State.resetOf c).Inv where
  capLow := hc
  olenLeCap := Nat.zero_le _
  restZero := fun i _ _ => read_zero i
  failEmpty := fun _ => rfl
  errLegal := (by decide : (statusClear.extractLsb' 0 4).toNat ≤ 5)
  reservedZero := (by decide : statusClear.extractLsb' 5 3 = 0#3)
  notDone := fun _ => ⟨(by decide : statusClear.extractLsb' 0 4 = 0#4), rfl⟩
  rngEmpty := ⟨rfl, rfl⟩
  ibufForm := ⟨zero_wf, rfl⟩
  obufForm := ⟨zero_wf, rfl⟩

/-- The invariant does not speak of the run's lists and counters, nor of ILEN. -/
theorem inv_with_ilen_and_lists {s : State} (h : s.Inv) (v : Half) (as : List Draw) (n : Nat) (ls : List ScriptLine)
    (vs : List ReadValue) :
    ({ s with ilen := v, answers := as, draws := n, script := ls, outputs := vs } : State).Inv :=
  { h with }

theorem clearEngine_keeps_inv {s : State} (h : s.Inv) : (clearEngine s).Inv :=
  inv_with_ilen_and_lists (resetOf_inv h.capLow) 0#16 s.answers s.draws s.script s.outputs

theorem writeIbuf_keeps_inv {s : State} {i : Nat} (v : Byte) (h : s.Inv) (hi : i < s.cap) :
    (s.setIbuf (s.ibuf.write i v)).Inv :=
  { h with ibufForm := ⟨write_keeps_wf i v h.ibufForm.1, write_keeps_below v h.ibufForm.2 hi⟩ }

/-! ### Commands, lines, steps and runs -/

theorem commandEnd_keeps_inv {s t : State} (h : s.Inv) (he : CommandEnd s t) : t.Inv ∧ t.capr = s.capr := by
  have hdrew (n : Nat) : (drew n s).Inv := inv_with_ilen_and_lists h _ _ _ _ _
  cases he with
  | failed f n => exact ⟨raise_keeps_inv f (hdrew n), rfl⟩
  | completed r n hr => exact ⟨complete_keeps_inv (hdrew n) hr, rfl⟩
  | cleared => exact ⟨clearEngine_keeps_inv h, rfl⟩

theorem lineEnd_keeps_inv {s t : State} (h : s.Inv) (he : LineEnd s t) : t.Inv ∧ t.capr = s.capr := by
  cases he with
  | returned v => exact ⟨inv_with_ilen_and_lists h _ _ _ _ _, rfl⟩
  | wroteIlen v => exact ⟨inv_with_ilen_and_lists h v _ _ _ _, rfl⟩
  | wroteByte i v hi => exact ⟨writeIbuf_keeps_inv v h hi, rfl⟩
  | ranCommand _ hc => exact commandEnd_keeps_inv h hc
  | expanded ls => exact ⟨inv_with_ilen_and_lists h _ _ _ ls _, rfl⟩
  | wasReset => exact ⟨clearEngine_keeps_inv h, rfl⟩

/-- Every step keeps the invariant and CAPR (10_state R26, clause (g) included). -/
theorem step_keeps_inv {s t : State} (h : s.Inv) (hs : step s = .next t) : t.Inv ∧ t.capr = s.capr := by
  obtain rfl | ⟨l, rest, -, he⟩ := step_end hs
  · exact ⟨h, rfl⟩
  · exact lineEnd_keeps_inv (s := s.setScript rest) (inv_with_ilen_and_lists h _ _ _ rest _) he

/-- A run that answers a next state made its first step and then the others. -/
theorem core_run_succ_next {M : Host.Core} {n : Nat} {s t : M.State} (h : M.run (n + 1) s = .next t) :
    ∃ u, M.step s = .next u ∧ M.run n u = .next t := by
  rw [Host.Core.run] at h
  cases hs : M.step s with
  | next u => rw [hs] at h; exact ⟨u, rfl, h⟩
  | fault r => rw [hs] at h; cases h
  | refused r => rw [hs] at h; cases h

theorem run_keeps_inv {n : Nat} {s t : State} (h : s.Inv) (hr : Host.Core.run Sys2Proof.core n s = .next t) :
    t.Inv ∧ t.capr = s.capr := by
  induction n generalizing s with
  | zero =>
    obtain rfl : s = t := next_inj hr
    exact ⟨h, rfl⟩
  | succ n ih =>
    obtain ⟨u, hu, hrun⟩ := core_run_succ_next (M := Sys2Proof.core) hr
    obtain ⟨hinv, hcapr⟩ := step_keeps_inv h hu
    obtain ⟨htinv, htcapr⟩ := ih hinv hrun
    exact ⟨htinv, htcapr.trans hcapr⟩

/-- With OLEN 0 the whole of OBUF is zero (10_state R26(b)). -/
theorem obuf_zero_of_olen_zero {s : State} (h : s.Inv) (ho : s.olen = 0#16) (i : Nat) (hi : i < s.cap) :
    s.obuf.read i = 0x00#8 :=
  h.restZero i (by simp [ho]) hi

/-- Settles O45: the reset state meets the invariant, every run keeps it with CAPR, and the clauses follow from it. -/
theorem observableStatesSatisfyTheClauses : Obligations.ObservableStatesSatisfyTheClauses := by
  intro c lines answers draws n t hc hr
  obtain ⟨h, hcapr⟩ := run_keeps_inv (inv_with_ilen_and_lists (resetOf_inv hc) _ answers draws lines _) hr
  have hcap : t.cap = c.toNat := congrArg BitVec.toNat hcapr
  rw [← hcap]
  refine ⟨h.olenLeCap, h.restZero, fun he => ?_, ⟨h.errLegal, h.reservedZero⟩, fun hd => ?_, h.rngEmpty.symm, hcapr⟩
  · have ho := h.failEmpty he
    exact ⟨ho, obuf_zero_of_olen_zero h ho⟩
  · obtain ⟨he, ho⟩ := h.notDone hd
    exact ⟨he, ho, obuf_zero_of_olen_zero h ho⟩

end Sys2Proof.Invariant

/-! PROOF. The words that are no command (30_encoding R54): decoding refuses exactly these, and writing one to CMD is the
failure IllegalCommand. -/

namespace Sys2Proof.IllegalWords

open Sys2Proof.Machine Sys2Proof.Laws

/-! ### What decoding refuses -/

/-- A check on a reserved field (30_encoding R53): the word is refused when the field is not zero, and else as the rest
of decoding decides. -/
theorem refused_ite_iff (p : Prop) [Decidable p] (d : Decoded) (e : IllegalWord) :
    (∃ why, (if p then d else .illegal e) = .illegal why) ↔ ¬ p ∨ ∃ why, d = .illegal why := by
  split
  · next hp => simp [hp]
  · next hp => simp [hp]

/-- The illegal words are exactly those decoding refuses (30_encoding R54), opcode by opcode of R51. -/
theorem illegalCommandWord_iff (w : Word) : IllegalCommandWord w ↔ ∃ why, decode w = .illegal why := by
  rw [IllegalCommandWord, decode]
  split
  case isTrue gen => simp [gen, refused_ite_iff]
  split
  case isTrue genkey => simp [genkey]
  split
  case isTrue pad => simp [pad, refused_ite_iff]
  split
  case isTrue unpad => simp [unpad, refused_ite_iff]
  split
  case isTrue clr => simp [clr, refused_ite_iff]
  case isFalse gen genkey pad unpad clr => simp [gen, genkey, pad, unpad, clr]

/-! ### What writing such a word does -/

/-- A write of CMD at its width is the command's execution, for every word (42 R90). -/
theorem performAccess_writeCmd (w : Word) (s : State) :
    performAccess (.write .reg 0 4 w.toNat) s = writeCmd w s :=
  performLine_writeCmd w s

theorem writeCmd_of_refused {w : Word} {why : IllegalWord} (h : decode w = .illegal why) (s : State) :
    writeCmd w s = .next (raise .illegalCommand s) := by
  rw [writeCmd, h]

theorem raise_illegalCommand_fails (s : State) : FailsWith 0x14#8 0 s (raise .illegalCommand s) :=
  raise_fails .illegalCommand 0 s

theorem endsWithIllegalCommand {w : Word} (h : IllegalCommandWord w) : EndsWithIllegalCommand w := by
  obtain ⟨why, hd⟩ := (illegalCommandWord_iff w).1 h
  refine ⟨⟨why, hd⟩, fun s => ⟨raise .illegalCommand s, ?_, raise_illegalCommand_fails s⟩⟩
  rw [performAccess_writeCmd, writeCmd_of_refused hd]

/-- Settles O4: the illegal words are those decoding refuses, and such a write is `raise IllegalCommand`. -/
theorem illegalWordsEndWithIllegalCommand : Obligations.IllegalWordsEndWithIllegalCommand := by
  refine ⟨fun w s h => (endsWithIllegalCommand h).2 s, illegalCommandWord_iff, ?_, ?_⟩
  · exact .inl (by decide)
  · exact .inl (by decide)

end Sys2Proof.IllegalWords

/-! PROOF. The generation commands (40_keygen R64 to R69): which words they are, when each is GENBYTES of a length and
when it is a refused operand, and how each end of GENBYTES looks. -/

namespace Sys2Proof.KeyGeneration

open Sys2Proof.Machine Sys2Proof.Laws Sys2Proof.IllegalWords

/-! ### The words (30_encoding R51) -/

theorem decode_opcode_gen {w : Word} (ho : opcOf w = 0x01#8) (hc : clsOf w = 0#8) :
    decode w = .command (.gen (immOf w)) := by
  rw [decode, if_pos ho, if_pos hc]

theorem illegalCommandWord_opcode_gen {w : Word} (ho : opcOf w = 0x01#8) (hc : clsOf w ≠ 0#8) :
    IllegalCommandWord w :=
  .inr (.inl ⟨by simp [ho], hc⟩)

theorem decode_opcode_genkey {w : Word} (ho : opcOf w = 0x02#8) :
    decode w = .command (decodeGenkey (clsOf w) (immOf w)) := by
  rw [decode, if_neg (by simp [ho]), if_pos ho]

/-- The word of a GENKEY whose key class is known (30_encoding R50). -/
theorem decode_genkey_class {w : Word} {cls : Byte} (ho : opcOf w = 0x02#8) (hc : clsOf w = cls) :
    decode w = .command (decodeGenkey cls (immOf w)) :=
  hc ▸ decode_opcode_genkey ho

/-- The classes above the four of 30_encoding R50 name nothing. -/
theorem decodeGenkey_undefined {cls : Byte} (h : 4 ≤ cls.toNat) (imm : Half) :
    decodeGenkey cls imm = .genkeyUndef cls imm := by
  have hne {c : Byte} (hc : c.toNat < 4) : cls ≠ c := by
    rintro rfl
    omega
  rw [decodeGenkey, if_neg (hne (by decide)), if_neg (hne (by decide)), if_neg (hne (by decide)),
    if_neg (hne (by decide))]

/-! ### The operands: a command is GENBYTES of a length, or refuses its operand -/

theorem exec_gen_of_pos {imm : Half} (h : 1 ≤ imm.toNat) (s : State) :
    exec (.gen imm) s = .next (genBytes imm.toNat s) := by
  have hl : genLength imm = some imm.toNat := if_neg (by omega)
  rw [exec, execGen, hl, generate]

/-- GENIV is another spelling of GEN (40_keygen R68). -/
theorem exec_geniv_eq_exec_gen (imm : Half) (s : State) : exec (.geniv imm) s = exec (.gen imm) s := rfl

theorem exec_keydes_refused {imm : Half} (h : imm ≠ 0#16) (s : State) :
    exec (.keydes imm) s = .next (raise .invalidParameter s) := by
  have hl : desLength imm = none := if_neg h
  rw [exec, execKeydes, hl, generate]

/-- The options of 40_keygen R66, each length fitting every legal capacity. -/
theorem tripleDesLength_of_option {imm : Half} {n : Nat} (h : (imm, n) ∈ [(1#16, 8), (2#16, 16), (3#16, 24)]) :
    tripleDesLength imm = some n ∧ n ≤ Config.minCap := by
  simp only [List.mem_cons, Prod.mk.injEq, List.not_mem_nil, or_false] at h
  obtain ⟨rfl, rfl⟩ | ⟨rfl, rfl⟩ | ⟨rfl, rfl⟩ := h <;> decide

theorem exec_key3des_of_option {imm : Half} {n : Nat} (h : (imm, n) ∈ [(1#16, 8), (2#16, 16), (3#16, 24)])
    (s : State) : exec (.key3des imm) s = .next (genBytes n s) := by
  rw [exec, execKey3des, (tripleDesLength_of_option h).1, generate]

theorem exec_key3des_refused {imm : Half} (h1 : imm ≠ 1#16) (h2 : imm ≠ 2#16) (h3 : imm ≠ 3#16) (s : State) :
    exec (.key3des imm) s = .next (raise .invalidParameter s) := by
  have hl : tripleDesLength imm = none := by rw [tripleDesLength, if_neg h1, if_neg h2, if_neg h3]
  rw [exec, execKey3des, hl, generate]

/-- The bit lengths of 40_keygen R67, each length in bytes fitting every legal capacity. -/
theorem aesLength_of_bits {imm : Half} {n : Nat} (h : (imm, n) ∈ [(128#16, 16), (192#16, 24), (256#16, 32)]) :
    aesLength imm = some n ∧ n ≤ Config.minCap := by
  simp only [List.mem_cons, Prod.mk.injEq, List.not_mem_nil, or_false] at h
  obtain ⟨rfl, rfl⟩ | ⟨rfl, rfl⟩ | ⟨rfl, rfl⟩ := h <;> decide

theorem exec_keyaes_of_bits {imm : Half} {n : Nat} (h : (imm, n) ∈ [(128#16, 16), (192#16, 24), (256#16, 32)])
    (s : State) : exec (.keyaes imm) s = .next (genBytes n s) := by
  rw [exec, execKeyaes, (aesLength_of_bits h).1, generate]

theorem exec_keyaes_refused {imm : Half} (h1 : imm ≠ 128#16) (h2 : imm ≠ 192#16) (h3 : imm ≠ 256#16) (s : State) :
    exec (.keyaes imm) s = .next (raise .invalidParameter s) := by
  have hl : aesLength imm = none := by rw [aesLength, if_neg h1, if_neg h2, if_neg h3]
  rw [exec, execKeyaes, hl, generate]

/-! ### How each end looks (60 R101, R102), whatever the command

Each is stated of a command already known to be `genBytes` of a length, or the refusal of an operand. -/

section Ends

variable {i : Instr} {n : Nat} {s : State}

theorem fails_of_refused (he : exec i s = .next (raise .invalidParameter s)) :
    ∃ t, exec i s = .next t ∧ FailsWith 0x11#8 0 s t :=
  ⟨_, he, raise_fails .invalidParameter 0 s⟩

theorem fails_of_beyond_capacity (he : exec i s = .next (genBytes n s)) (hc : s.cap < n) :
    ∃ t, exec i s = .next t ∧ FailsWith 0x15#8 0 s t :=
  ⟨_, he, genBytes_beyond_capacity hc ▸ raise_fails .capacityExceeded 0 s⟩

theorem succeeds_of_answered {bs : List Byte} (he : exec i s = .next (genBytes n s)) (hc : n ≤ s.cap)
    (hw : s.obuf.wf = true) (hl : bs.length = n) (hb : ∀ k (h : k < bs.length), s.nthDraw k = .byte bs[k]) :
    ∃ t, exec i s = .next t ∧ SucceedsWith bs n s t := by
  subst hl
  obtain ⟨r, -, hr, hg⟩ := genBytes_delivers hc hb
  obtain rfl := hr hw
  exact ⟨_, he, hg ▸ complete_succeeds r r.length s (hc.trans_lt s.capr.isLt)⟩

theorem fails_of_unanswered {k : Nat} (he : exec i s = .next (genBytes n s)) (hc : n ≤ s.cap) (hk : k < n)
    (hb : ∀ j, j < k → ∃ b, s.nthDraw j = .byte b) (hu : s.nthDraw k = .unavailable) :
    ∃ t, exec i s = .next t ∧ FailsWith 0x13#8 (k + 1) s t :=
  ⟨_, he, genBytes_unanswered hc hk hb hu ▸ raise_fails .entropySourceError (k + 1) s⟩

end Ends

/-! ### The rules -/

/-- Settles O9: with a positive operand GEN is GENBYTES of it, and each premise selects one of GENBYTES's three ends. -/
theorem genRule : Obligations.GenRule := by
  refine ⟨?answered, ?zero, ?beyond, ?unanswered, ?words⟩
  case answered =>
    intro imm bs s hw hpos hc hl hb
    exact succeeds_of_answered (exec_gen_of_pos hpos s) hc hw hl hb
  case zero => exact fun s => fails_of_refused rfl
  case beyond =>
    intro imm s hc
    exact fails_of_beyond_capacity (exec_gen_of_pos (by omega) s) hc
  case unanswered =>
    intro imm k s hc hk hb hu
    exact fails_of_unanswered (exec_gen_of_pos (by omega) s) hc hk hb hu
  case words =>
    intro w ho
    exact ⟨decode_opcode_gen ho, fun hc => endsWithIllegalCommand (illegalCommandWord_opcode_gen ho hc)⟩

/-- Settles O10: with operand 0 KEYDES is GENBYTES of 8, which every legal capacity holds. -/
theorem keydesRule : Obligations.KeydesRule := by
  have hfits {s : State} (hc : Config.minCap ≤ s.cap) : 8 ≤ s.cap := le_trans (by decide) hc
  refine ⟨?answered, ?refused, ?unanswered, ?words⟩
  case answered =>
    intro bs s hw hc hl hb
    exact succeeds_of_answered rfl (hfits hc) hw hl hb
  case refused => exact fun imm s h => fails_of_refused (exec_keydes_refused h s)
  case unanswered =>
    intro k s hc hk hb hu
    exact fails_of_unanswered rfl (hfits hc) hk hb hu
  case words => exact fun w ho hc => decode_genkey_class ho hc

/-- Settles O11: with an option of R66 KEY3DES is GENBYTES of its length, which every legal capacity holds. -/
theorem key3desRule : Obligations.Key3desRule := by
  refine ⟨?answered, ?refused, ?unanswered, ?words⟩
  case answered =>
    intro imm n bs s hw hc hn hl hb
    exact succeeds_of_answered (exec_key3des_of_option hn s) ((tripleDesLength_of_option hn).2.trans hc) hw hl hb
  case refused => exact fun imm s h1 h2 h3 => fails_of_refused (exec_key3des_refused h1 h2 h3 s)
  case unanswered =>
    intro imm n k s hc hn hk hb hu
    exact fails_of_unanswered (exec_key3des_of_option hn s) ((tripleDesLength_of_option hn).2.trans hc) hk hb hu
  case words => exact fun w ho hc => decode_genkey_class ho hc

/-- Settles O12: with a bit length of R67 KEYAES is GENBYTES of its bytes, which every legal capacity holds. -/
theorem keyaesRule : Obligations.KeyaesRule := by
  refine ⟨?answered, ?refused, ?unanswered, ?words⟩
  case answered =>
    intro imm n bs s hw hc hn hl hb
    exact succeeds_of_answered (exec_keyaes_of_bits hn s) ((aesLength_of_bits hn).2.trans hc) hw hl hb
  case refused => exact fun imm s h1 h2 h3 => fails_of_refused (exec_keyaes_refused h1 h2 h3 s)
  case unanswered =>
    intro imm n k s hc hn hk hb hu
    exact fails_of_unanswered (exec_keyaes_of_bits hn s) ((aesLength_of_bits hn).2.trans hc) hk hb hu
  case words => exact fun w ho hc => decode_genkey_class ho hc

/-- Settles O13: GENIV has the effect of GEN in every state, so the rule of GEN is its rule. -/
theorem genivRule : Obligations.GenivRule := by
  obtain ⟨answered, zero, beyond, unanswered, -⟩ := genRule
  simp only [← exec_geniv_eq_exec_gen] at answered zero beyond unanswered
  exact ⟨answered, zero, beyond, unanswered, exec_geniv_eq_exec_gen, fun w ho hc => decode_genkey_class ho hc⟩

/-- Settles O14: an undefined class decodes to the command that refuses whatever its operand is. -/
theorem genkeyUndefinedClassFails : Obligations.GenkeyUndefinedClassFails := by
  refine ⟨fun cls imm s _ => fails_of_refused rfl, fun w ho hc => ?_⟩
  rw [decode_opcode_genkey ho, decodeGenkey_undefined hc]

end Sys2Proof.KeyGeneration

/-! PROOF. PAD and UNPAD (41_pkcs7): which words they are, how each of their ends looks, and the laws that follow: what a
successful PAD leaves, when it succeeds, and that UNPAD takes its padding off again. -/

namespace Sys2Proof.Pkcs7

open Sys2Proof.Machine Sys2Proof.Laws Sys2Proof.IllegalWords

/-! ### The words (30_encoding R51) -/

theorem decode_opcode_pad {w : Word} (ho : opcOf w = 0x10#8) (hc : clsOf w = 0#8) :
    decode w = .command (.pad (immOf w)) := by
  simp [decode, ho, hc]

theorem illegalCommandWord_opcode_pad {w : Word} (ho : opcOf w = 0x10#8) (hc : clsOf w ≠ 0#8) :
    IllegalCommandWord w :=
  .inr (.inl ⟨by simp [ho], hc⟩)

theorem decode_opcode_unpad {w : Word} (ho : opcOf w = 0x11#8) (hc : clsOf w = 0#8) (hi : immOf w = 0#16) :
    decode w = .command .unpad := by
  simp [decode, ho, hc, hi]

theorem illegalCommandWord_opcode_unpad {w : Word} (ho : opcOf w = 0x11#8) (h : clsOf w ≠ 0#8 ∨ immOf w ≠ 0#16) :
    IllegalCommandWord w := by
  rcases h with hc | hi
  · exact .inr (.inl ⟨by simp [ho], hc⟩)
  · exact .inr (.inr ⟨by simp [ho], hi⟩)

theorem exec_pad (imm : Half) (s : State) : exec (.pad imm) s = .next (padCommand imm s) := rfl

theorem exec_unpad (s : State) : exec .unpad s = .next (unpadCommand s) := rfl

/-! ### The three ends of PAD (41_pkcs7 R76) -/

/-- PAD's result: the data, then `padLen` bytes `padLen`. -/
def padded (blockSize : Nat) (s : State) : List Byte :=
  inputBytes s ++ List.replicate (padLength blockSize s.ilen.toNat) (BitVec.ofNat 8 (padLength blockSize s.ilen.toNat))

@[simp] theorem padded_length (blockSize : Nat) (s : State) :
    (padded blockSize s).length = s.ilen.toNat + padLength blockSize s.ilen.toNat := by
  simp [padded]

theorem padded_byte (blockSize : Nat) (s : State) (i : Nat) :
    (padded blockSize s).getD i 0x00#8 =
      if i < s.ilen.toNat then s.ibuf.read i
      else if i < s.ilen.toNat + padLength blockSize s.ilen.toNat then
        BitVec.ofNat 8 (padLength blockSize s.ilen.toNat)
      else 0x00#8 :=
  padded_getD ..

/-- The block size is legal and the padded result fits OBUF (41_pkcs7 R78). -/
def PadFits (imm : Half) (s : State) : Prop :=
  1 ≤ imm.toNat ∧ imm.toNat ≤ 255 ∧ s.ilen.toNat + padLength imm.toNat s.ilen.toNat ≤ s.cap

theorem padCommand_invalidParameter {imm : Half} (h : imm.toNat = 0 ∨ 255 < imm.toNat) (s : State) :
    padCommand imm s = raise .invalidParameter s := by
  obtain ⟨-, he⟩ | ⟨h1, h2, -⟩ | ⟨h1, h2, -⟩ := padCommand_cases imm s
  · exact he
  all_goals omega

theorem padCommand_capacityExceeded {imm : Half} {s : State} (h1 : 1 ≤ imm.toNat) (h2 : imm.toNat ≤ 255)
    (h : s.cap < s.ilen.toNat ∨ s.cap < s.ilen.toNat + padLength imm.toNat s.ilen.toNat) :
    padCommand imm s = raise .capacityExceeded s := by
  obtain ⟨hb, -⟩ | ⟨-, -, -, he⟩ | ⟨-, -, hfit, -⟩ := padCommand_cases imm s
  · omega
  · exact he
  · omega

theorem padCommand_succeeds {imm : Half} {s : State} (h : PadFits imm s) :
    SucceedsWith (padded imm.toNat s) 0 s (padCommand imm s) := by
  obtain ⟨h1, h2, hfit⟩ := h
  obtain ⟨hb, -⟩ | ⟨-, -, hc, -⟩ | ⟨-, -, -, he⟩ := padCommand_cases imm s
  · omega
  · omega
  · rw [he]
    exact complete_succeeds (padded imm.toNat s) 0 s (by simpa using hfit.trans_lt s.capr.isLt)

/-- PAD without a failure had a legal block size and a result that fits: its two failures write their code to ERR. -/
theorem padFits_of_err_zero {imm : Half} {s : State} (h : (padCommand imm s).err = 0#4) : PadFits imm s := by
  obtain ⟨-, he⟩ | ⟨-, -, -, he⟩ | ⟨h1, h2, hfit, -⟩ := padCommand_cases imm s
  · rw [he, raise_err] at h
    exact absurd h (by decide)
  · rw [he, raise_err] at h
    exact absurd h (by decide)
  · exact ⟨h1, h2, hfit⟩

/-- Success is STATUS 0x10 (60 R102), whose ERR is 0. -/
theorem padCommand_status_iff (imm : Half) (s : State) : (padCommand imm s).status = 0x10#8 ↔ PadFits imm s := by
  refine ⟨fun h => padFits_of_err_zero ?_, fun h => (padCommand_succeeds h).status⟩
  rw [State.err, h]
  decide

/-- A block size that is legal and a result that fits, without the padding length (41_pkcs7 R77(g), R78). -/
theorem padFits_iff (imm : Half) (s : State) :
    PadFits imm s ↔ 1 ≤ imm.toNat ∧ imm.toNat ≤ 255 ∧ (s.ilen.toNat / imm.toNat + 1) * imm.toNat ≤ s.cap := by
  refine and_congr_right fun h1 => and_congr_right fun _ => ?_
  rw [add_padLength h1]

/-- The next multiple of `b` after `l` fits exactly when `l` is below the largest multiple that fits. -/
theorem next_multiple_le_iff {b : Nat} (hb : 1 ≤ b) (l c : Nat) : (l / b + 1) * b ≤ c ↔ l < c / b * b := by
  rw [← Nat.le_div_iff_mul_le hb, Nat.succ_le_iff, Nat.div_lt_iff_lt_mul hb]

/-- Settles O19: each premise selects one of PAD's three ends. -/
theorem padRule : Obligations.PadRule := by
  refine ⟨?fits, ?blockSize, ?beyond, ?words⟩
  case fits =>
    intro imm s h1 h2 hfit
    have h := padCommand_succeeds (imm := imm) (s := s) ⟨h1, h2, hfit⟩
    exact ⟨_, exec_pad imm s, h.status, h.olen.trans (padded_length _ s),
      fun i => (h.result i).trans (padded_byte _ s i), h.form, h.kept, h.drawn⟩
  case blockSize =>
    intro imm s hb
    exact ⟨_, exec_pad imm s, padCommand_invalidParameter hb s ▸ raise_fails .invalidParameter 0 s⟩
  case beyond =>
    intro imm s h1 h2 hc
    exact ⟨_, exec_pad imm s, padCommand_capacityExceeded h1 h2 hc ▸ raise_fails .capacityExceeded 0 s⟩
  case words =>
    intro w ho
    exact ⟨decode_opcode_pad ho, fun hc => endsWithIllegalCommand (illegalCommandWord_opcode_pad ho hc)⟩

/-- Settles O21: success is that the result fits, and the result's length is the next multiple of the block size. -/
theorem padSucceedsExactlyWhenTheResultFits : Obligations.PadSucceedsExactlyWhenTheResultFits := by
  intro imm s
  refine ⟨_, exec_pad imm s, (padCommand_status_iff imm s).trans (padFits_iff imm s), fun h1 h2 hc => ?_, fun h1 h2 => ?_⟩
  · have := (padLength_bounds h1 s.ilen.toNat).2
    exact (padCommand_status_iff imm s).2 ⟨h1, h2, by omega⟩
  · rw [padCommand_status_iff, padFits_iff, next_multiple_le_iff h1]
    simp [h1, h2]

/-! ### The laws of PAD (41_pkcs7 R77) -/

section Result

variable {imm : Half} {s : State}

theorem padCommand_olen (h : PadFits imm s) :
    (padCommand imm s).olen.toNat = s.ilen.toNat + padLength imm.toNat s.ilen.toNat := by
  rw [(padCommand_succeeds h).olen, padded_length]

theorem padCommand_keeps_data (h : PadFits imm s) {i : Nat} (hi : i < s.ilen.toNat) :
    (padCommand imm s).obuf.read i = s.ibuf.read i := by
  rw [(padCommand_succeeds h).result, padded_byte, if_pos hi]

theorem padCommand_appends_padLength (h : PadFits imm s) {i : Nat} (hlow : s.ilen.toNat ≤ i)
    (hi : i < s.ilen.toNat + padLength imm.toNat s.ilen.toNat) :
    (padCommand imm s).obuf.read i = BitVec.ofNat 8 (padLength imm.toNat s.ilen.toNat) := by
  rw [(padCommand_succeeds h).result, padded_byte, if_neg (by omega), if_pos hi]

end Result

/-- The byte that stands for a padding length holds it. -/
theorem toNat_ofNat_of_le_255 {n : Nat} (h : n ≤ 255) : (BitVec.ofNat 8 n).toNat = n := by
  rw [BitVec.toNat_ofNat, Nat.mod_eq_of_lt (by omega)]

/-- A sequence followed by `n` bytes `n` passes UNPAD's three checks, and its last byte is `n`. -/
theorem validPadding_of_appended {m : Memory} {len n : Nat} (h1 : 1 ≤ n) (hn : n ≤ 255)
    (h : ∀ i, len ≤ i → i < len + n → m.read i = BitVec.ofNat 8 n) :
    ValidPadding m (len + n) ∧ (m.read (len + n - 1)).toNat = n := by
  have hlast : m.read (len + n - 1) = BitVec.ofNat 8 n := h _ (by omega) (by omega)
  have hval : (m.read (len + n - 1)).toNat = n := by rw [hlast, toNat_ofNat_of_le_255 hn]
  refine ⟨⟨by omega, by omega, by omega, fun j hj hj' => ?_⟩, hval⟩
  rw [hlast]
  exact h j (by omega) (by omega)

/-- Settles O20: the padding length is from 1 to the block size, the padded length is the next multiple of it, and every
byte appended is the padding length. -/
theorem padLaws : Obligations.PadLaws := by
  intro imm s t he hz
  obtain rfl := next_inj he
  have h := padFits_of_err_zero hz
  have ⟨hb1, hb2, _⟩ := h
  obtain ⟨hp1, hp2⟩ := padLength_bounds hb1 s.ilen.toNat
  have hnext := add_padLength hb1 s.ilen.toNat
  have hmod : (s.ilen.toNat + padLength imm.toNat s.ilen.toNat) % imm.toNat = 0 := by rw [hnext, Nat.mul_mod_left]
  obtain ⟨⟨hv1, -, -, hv⟩, hn⟩ :=
    validPadding_of_appended hp1 (hp2.trans hb2) fun i => padCommand_appends_padLength h (i := i)
  rw [padCommand_olen h, Nat.add_sub_cancel_left]
  refine ⟨hmod, by omega, hp1, hp2, fun h0 => ?fullBlock, fun i hlow hi => ?uniform, fun i => padCommand_keeps_data h,
    ⟨hb1, hb2, hv1, hmod, by omega, by omega, hv⟩, hnext⟩
  case fullBlock => rw [padLength, h0, Nat.sub_zero]
  case uniform => rw [padCommand_appends_padLength h hlow hi, toNat_ofNat_of_le_255 (hp2.trans hb2)]

/-! ### The three ends of UNPAD (41_pkcs7 R79) -/

theorem unpadCommand_capacityExceeded {s : State} (h : s.cap < s.ilen.toNat) :
    unpadCommand s = raise .capacityExceeded s := by
  obtain ⟨-, he⟩ | ⟨hc, -⟩ | ⟨hc, -⟩ := unpadCommand_cases s
  · exact he
  all_goals omega

theorem unpadCommand_invalidPadding {s : State} (hc : s.ilen.toNat ≤ s.cap)
    (h : ¬ ValidPadding s.ibuf s.ilen.toNat) : unpadCommand s = raise .invalidPadding s := by
  obtain ⟨hc', -⟩ | ⟨-, -, he⟩ | ⟨-, hv, -⟩ := unpadCommand_cases s
  · omega
  · exact he
  · exact absurd hv h

theorem unpadCommand_succeeds {s : State} (hc : s.ilen.toNat ≤ s.cap) (h : ValidPadding s.ibuf s.ilen.toNat) :
    SucceedsWith (s.ibuf.readRange 0 (s.ilen.toNat - (s.ibuf.read (s.ilen.toNat - 1)).toNat)) 0 s
      (unpadCommand s) := by
  obtain ⟨hc', -⟩ | ⟨-, hv, -⟩ | ⟨-, -, he⟩ := unpadCommand_cases s
  · omega
  · exact absurd h hv
  · rw [he]
    refine complete_succeeds _ 0 s ?_
    rw [readRange_length]
    exact (Nat.sub_le _ _).trans_lt s.ilen.isLt

/-- Settles O22: each premise selects one of UNPAD's three ends. -/
theorem unpadRule : Obligations.UnpadRule := by
  refine ⟨?valid, ?beyond, ?invalid, ?words⟩
  case valid =>
    intro s hc hv
    have h := unpadCommand_succeeds hc hv
    refine ⟨_, exec_unpad s, h.status, h.olen.trans (readRange_length _ _ _), fun i => ?_, h.form, h.kept, h.drawn⟩
    rw [h.result, readRange_getD, Nat.zero_add]
  case beyond =>
    intro s hc
    exact ⟨_, exec_unpad s, unpadCommand_capacityExceeded hc ▸ raise_fails .capacityExceeded 0 s⟩
  case invalid =>
    intro s hc hv
    exact ⟨_, exec_unpad s, unpadCommand_invalidPadding hc hv ▸ raise_fails .invalidPadding 0 s⟩
  case words =>
    intro w ho
    exact ⟨decode_opcode_unpad ho, fun h => endsWithIllegalCommand (illegalCommandWord_opcode_unpad ho h)⟩

/-- Settles O23: whichever check fails, UNPAD is `raise InvalidPadding`, which writes constants and keeps the inputs. -/
theorem unpadFailsOneWay : Obligations.UnpadFailsOneWay := by
  intro s s' hc hc' hv hv'
  refine ⟨raise .invalidPadding s, raise .invalidPadding s', ?_, ?_, raise_err _ _,
    Invariant.done_statusFailure .invalidPadding, rfl, read_zero, rfl, rfl, rfl, rfl, rfl, rfl, rfl, rfl, rfl⟩
  · rw [exec_unpad, unpadCommand_invalidPadding hc hv]
  · rw [exec_unpad, unpadCommand_invalidPadding hc' hv']

/-! ### UNPAD after PAD (41_pkcs7 R83) -/

/-- Settles O25: the copied result is the data followed by `padLen` bytes `padLen`, so UNPAD's checks pass and it takes
exactly these bytes off. -/
theorem unpadInvertsPad : Obligations.UnpadInvertsPad := by
  intro imm s t u he hz hcapr hilen hcopy
  obtain rfl := next_inj he
  have h := padFits_of_err_zero hz
  have ⟨hb1, hb2, hfit⟩ := h
  obtain ⟨hp1, hp2⟩ := padLength_bounds hb1 s.ilen.toNat
  have hlen : u.ilen.toNat = s.ilen.toNat + padLength imm.toNat s.ilen.toNat := by rw [hilen, padCommand_olen h]
  rw [← hilen, hlen] at hcopy
  obtain ⟨hv, hn⟩ := validPadding_of_appended (m := u.ibuf) (len := s.ilen.toNat) hp1 (hp2.trans hb2)
    fun i hlow hi => by rw [hcopy i hi, padCommand_appends_padLength h hlow hi]
  have hcap : u.ilen.toNat ≤ u.cap := by rwa [hlen, cap_of_capr, hcapr]
  have hu := unpadCommand_succeeds hcap (by rwa [hlen])
  rw [hlen, hn, Nat.add_sub_cancel_right] at hu
  refine ⟨_, exec_unpad u, hu.status, BitVec.eq_of_toNat_eq (hu.olen.trans (readRange_length _ _ _)), fun i hi => ?_⟩
  rw [hu.result, readRange_getD, if_pos hi, Nat.zero_add, hcopy i (by omega), padCommand_keeps_data h hi]

end Sys2Proof.Pkcs7

/-! PROOF. CLR and the host's write of ILEN (42_control_and_host R87, R89): which words are CLR, and what each of the two
leaves of the whole state. -/

namespace Sys2Proof.ControlAndHost

open Sys2Proof.Machine Sys2Proof.Laws Sys2Proof.IllegalWords

/-! ### The words of CLR (30_encoding R51) -/

theorem decode_opcode_clr {w : Word} (ho : opcOf w = 0x20#8) (hc : clsOf w = 0#8) (hi : immOf w = 0#16) :
    decode w = .command .clr := by
  simp [decode, ho, hc, hi]

theorem illegalCommandWord_opcode_clr {w : Word} (ho : opcOf w = 0x20#8) (h : clsOf w ≠ 0#8 ∨ immOf w ≠ 0#16) :
    IllegalCommandWord w := by
  rcases h with hc | hi
  · exact .inr (.inl ⟨by simp [ho], hc⟩)
  · exact .inr (.inr ⟨by simp [ho], hi⟩)

/-! ### CLR -/

theorem exec_clr (s : State) : exec .clr s = .next (clearEngine s) := rfl

/-- The whole state CLR leaves: the reset state of the same capacity, the run's lists and counter as they were. -/
theorem clearEngine_eq_resetOf (s : State) :
    clearEngine s =
      { State.resetOf s.capr with
        answers := s.answers, draws := s.draws, script := s.script, outputs := s.outputs } :=
  rfl

/-- The word the engine writes to STATUS at CLR has neither an error code nor DONE. -/
theorem statusClear_eq_zero : statusClear = 0x00#8 := by decide

/-- Settles O27: CLR leaves `clearEngine`, whose fields are the reset values; a word of its opcode with a non-zero
reserved field is illegal. -/
theorem clrRule : Obligations.ClrRule := by
  refine ⟨fun s => ⟨clearEngine s, exec_clr s, ?state⟩, fun w ho => ⟨decode_opcode_clr ho, ?illegal⟩⟩
  case state =>
    exact ⟨(clearEngine_status s).trans statusClear_eq_zero, clearEngine_ilen s, clearEngine_olen s,
      clearEngine_rngData s, clearEngine_rngValid s, read_zero, read_zero, clearEngine_capr s,
      clearEngine_eq_resetOf s⟩
  case illegal => exact fun h => endsWithIllegalCommand (illegalCommandWord_opcode_clr ho h)

/-! ### The write of ILEN -/

/-- A write of ILEN at its width stores any value that fits 16 bits, with no check against CAP (10_state R17). -/
theorem performAccess_writeIlen {v : Nat} (s : State) (h : v < 2 ^ 16) :
    performAccess (.write .reg 2 2 v) s = .next (s.setIlen (BitVec.ofNat 16 v)) :=
  performLine_writeIlen s h

/-- Settles O37: the write is `setIlen`, and a value up to 65535 survives its 16 bits. -/
theorem ilenWrite : Obligations.IlenWrite := by
  intro v s hv
  have hlt : v < 2 ^ 16 := Nat.lt_succ_of_le hv
  refine ⟨s.setIlen (BitVec.ofNat 16 v), performAccess_writeIlen s hlt, ?_, rfl⟩
  rw [setIlen_ilen, BitVec.toNat_ofNat, Nat.mod_eq_of_lt hlt]

end Sys2Proof.ControlAndHost

/-! PROOF. Failures (60_exceptions R97 to R104): under which condition a command reports which failure and when it
delivers which result, said once for every command; each rule of the family is read off from these conditions. -/

namespace Sys2Proof.Exceptions

open Sys2Proof.Machine Sys2Proof.Laws Sys2Proof.IllegalWords Sys2Proof.KeyGeneration Sys2Proof.Pkcs7

/-! ### What a generation command asks for (40_keygen R72) -/

theorem exec_of_requests {i : Instr} {n : Nat} (h : Requests i n) (s : State) :
    exec i s = .next (genBytes n s) := by
  cases h with
  | gen imm hpos => exact exec_gen_of_pos hpos s
  | geniv imm hpos => exact exec_gen_of_pos hpos s
  | keydes => rfl
  | key3des1 => rfl
  | key3des2 => rfl
  | key3des3 => rfl
  | keyaes128 => rfl
  | keyaes192 => rfl
  | keyaes256 => rfl

theorem generates_of_requests {i : Instr} {n : Nat} (h : Requests i n) : generates i = true := by
  cases h <;> rfl

theorem beyondCapacity_of_requests {i : Instr} {n : Nat} {s : State} (h : Requests i n) (hc : s.cap < n) :
    BeyondCapacity s i := by
  have hb : RequestBeyond s i := ⟨n, h, hc⟩
  cases h <;> exact hb

theorem not_outOfDomain_of_requests {i : Instr} {n : Nat} (h : Requests i n) : ¬ OutOfDomain i := by
  have hzero : ¬ 1 ≤ (0#16).toNat := by decide
  cases h with
  | gen imm hpos => exact fun hd => hzero (hd ▸ hpos)
  | geniv imm hpos => exact fun hd => hzero (hd ▸ hpos)
  | keydes => exact fun hd => hd rfl
  | key3des1 => exact fun ⟨h1, _, _⟩ => h1 rfl
  | key3des2 => exact fun ⟨_, h2, _⟩ => h2 rfl
  | key3des3 => exact fun ⟨_, _, h3⟩ => h3 rfl
  | keyaes128 => exact fun ⟨h1, _, _⟩ => h1 rfl
  | keyaes192 => exact fun ⟨_, h2, _⟩ => h2 rfl
  | keyaes256 => exact fun ⟨_, _, h3⟩ => h3 rfl

/-- The table of R72 has a row for every operand in the domain (30_encoding R48). -/
theorem outOfDomain_or_requests {i : Instr} (h : generates i = true) : OutOfDomain i ∨ ∃ n, Requests i n := by
  have hpos {imm : Half} (hne : imm ≠ 0#16) : 1 ≤ imm.toNat := by
    have : imm.toNat ≠ 0 := fun h0 => hne (BitVec.eq_of_toNat_eq h0)
    omega
  refine or_iff_not_imp_left.2 fun hd => ?_
  cases i with
  | gen imm => exact ⟨_, .gen imm (hpos hd)⟩
  | geniv imm => exact ⟨_, .geniv imm (hpos hd)⟩
  | keydes imm =>
    obtain rfl : imm = 0#16 := not_not.1 hd
    exact ⟨_, .keydes⟩
  | key3des imm =>
    obtain rfl | rfl | rfl : imm = 1#16 ∨ imm = 2#16 ∨ imm = 3#16 := by
      simpa only [OutOfDomain, not_and_or, not_not] using hd
    exacts [⟨_, .key3des1⟩, ⟨_, .key3des2⟩, ⟨_, .key3des3⟩]
  | keyaes imm =>
    obtain rfl | rfl | rfl : imm = 128#16 ∨ imm = 192#16 ∨ imm = 256#16 := by
      simpa only [OutOfDomain, not_and_or, not_not] using hd
    exacts [⟨_, .keyaes128⟩, ⟨_, .keyaes192⟩, ⟨_, .keyaes256⟩]
  | genkeyUndef cls imm => cases h
  | pad imm => cases h
  | unpad => cases h
  | clr => cases h

/-! ### PAD's operand -/

theorem outOfDomain_pad_iff (imm : Half) : OutOfDomain (.pad imm) ↔ imm.toNat = 0 ∨ 255 < imm.toNat := by
  rw [OutOfDomain, ← BitVec.toNat_inj]
  rfl

theorem blockSize_of_not_outOfDomain {imm : Half} (h : ¬ OutOfDomain (.pad imm)) :
    1 ≤ imm.toNat ∧ imm.toNat ≤ 255 := by
  rw [outOfDomain_pad_iff] at h
  omega

/-! ### When a command fails and when it succeeds -/

/-- A command reports this failure after this many draws (60 R97 to R100, in the order of R104). -/
inductive Reports (i : Instr) (s : State) : Failure → Nat → Prop where
  | invalidParameter : OutOfDomain i → Reports i s .invalidParameter 0
  | capacityExceeded : ¬ OutOfDomain i → BeyondCapacity s i → Reports i s .capacityExceeded 0
  | entropySourceError (n k : Nat) : Requests i n → n ≤ s.cap → k < n →
      (∀ j, j < k → ∃ b, s.nthDraw j = .byte b) → s.nthDraw k = .unavailable →
      Reports i s .entropySourceError (k + 1)
  | invalidPadding : i = .unpad → s.ilen.toNat ≤ s.cap → ¬ ValidPadding s.ibuf s.ilen.toNat →
      Reports i s .invalidPadding 0

/-- UNPAD's result: the input without its last N bytes (41_pkcs7 R79). -/
def unpadded (s : State) : List Byte :=
  s.ibuf.readRange 0 (s.ilen.toNat - (s.ibuf.read (s.ilen.toNat - 1)).toNat)

/-- A command other than CLR succeeds with this result after this many draws (40_keygen R63; 41_pkcs7 R76, R79). -/
inductive Delivers (s : State) : Instr → List Byte → Nat → Prop where
  | generated {i : Instr} {bs : List Byte} : Requests i bs.length → bs.length ≤ s.cap →
      (∀ k (h : k < bs.length), s.nthDraw k = .byte bs[k]) → Delivers s i bs bs.length
  | padded (imm : Half) : PadFits imm s → Delivers s (.pad imm) (padded imm.toNat s) 0
  | unpadded : s.ilen.toNat ≤ s.cap → ValidPadding s.ibuf s.ilen.toNat → Delivers s .unpad (unpadded s) 0

/-- A request is refused for its length, or ends at its first unanswered draw, or is answered in full. -/
theorem reports_or_delivers_of_requests {i : Instr} {n : Nat} (h : Requests i n) (s : State) :
    (∃ f n, Reports i s f n) ∨ ∃ r n, Delivers s i r n := by
  rcases Nat.lt_or_ge s.cap n with hc | hc
  · exact .inl ⟨_, _, .capacityExceeded (not_outOfDomain_of_requests h) (beyondCapacity_of_requests h hc)⟩
  · obtain ⟨bs, rfl, hb⟩ | ⟨k, hk, hb, hu⟩ := draws_cases s n
    · exact .inr ⟨_, _, .generated h hc hb⟩
    · exact .inl ⟨_, _, .entropySourceError n k h hc hk hb hu⟩

/-- The conditions leave no case out: every command but CLR reports a failure or delivers a result. -/
theorem reports_or_delivers {i : Instr} (hclr : i ≠ .clr) (s : State) :
    (∃ f n, Reports i s f n) ∨ ∃ r n, Delivers s i r n := by
  by_cases hd : OutOfDomain i
  · exact .inl ⟨_, _, .invalidParameter hd⟩
  have generation (hg : generates i = true) : (∃ f n, Reports i s f n) ∨ ∃ r n, Delivers s i r n := by
    obtain ⟨n, hn⟩ := (outOfDomain_or_requests hg).resolve_left hd
    exact reports_or_delivers_of_requests hn s
  cases i with
  | gen imm => exact generation rfl
  | keydes imm => exact generation rfl
  | key3des imm => exact generation rfl
  | keyaes imm => exact generation rfl
  | geniv imm => exact generation rfl
  | genkeyUndef cls imm => exact absurd trivial hd
  | pad imm =>
    by_cases hc : BeyondCapacity s (.pad imm)
    · exact .inl ⟨_, _, .capacityExceeded hd hc⟩
    · obtain ⟨h1, h2⟩ := blockSize_of_not_outOfDomain hd
      exact .inr ⟨_, _, .padded imm ⟨h1, h2, not_lt.1 fun h => hc (.inr h)⟩⟩
  | unpad =>
    rcases Nat.lt_or_ge s.cap s.ilen.toNat with hc | hc
    · exact .inl ⟨_, _, .capacityExceeded hd hc⟩
    · by_cases hv : ValidPadding s.ibuf s.ilen.toNat
      · exact .inr ⟨_, _, .unpadded hc hv⟩
      · exact .inl ⟨_, _, .invalidPadding rfl hc hv⟩
  | clr => exact absurd rfl hclr

/-! ### What the command does under each condition (60 R101, R102) -/

theorem fails_of_outOfDomain {i : Instr} (h : OutOfDomain i) (s : State) :
    ∃ t, exec i s = .next t ∧ FailsWith 0x11#8 0 s t := by
  cases i with
  | gen imm =>
    obtain rfl : imm = 0#16 := h
    exact fails_of_refused rfl
  | keydes imm => exact fails_of_refused (exec_keydes_refused h s)
  | key3des imm =>
    obtain ⟨h1, h2, h3⟩ := h
    exact fails_of_refused (exec_key3des_refused h1 h2 h3 s)
  | keyaes imm =>
    obtain ⟨h1, h2, h3⟩ := h
    exact fails_of_refused (exec_keyaes_refused h1 h2 h3 s)
  | geniv imm =>
    obtain rfl : imm = 0#16 := h
    exact fails_of_refused rfl
  | genkeyUndef cls imm => exact fails_of_refused rfl
  | pad imm =>
    exact fails_of_refused ((exec_pad imm s).trans
      (congrArg _ (padCommand_invalidParameter ((outOfDomain_pad_iff imm).1 h) s)))
  | unpad => exact h.elim
  | clr => exact h.elim

theorem fails_of_requestBeyond {i : Instr} {s : State} (h : RequestBeyond s i) :
    ∃ t, exec i s = .next t ∧ FailsWith 0x15#8 0 s t := by
  obtain ⟨n, hn, hc⟩ := h
  exact fails_of_beyond_capacity (exec_of_requests hn s) hc

theorem fails_of_beyondCapacity {i : Instr} {s : State} (hd : ¬ OutOfDomain i) (h : BeyondCapacity s i) :
    ∃ t, exec i s = .next t ∧ FailsWith 0x15#8 0 s t := by
  cases i with
  | gen imm => exact fails_of_requestBeyond h
  | keydes imm => exact fails_of_requestBeyond h
  | key3des imm => exact fails_of_requestBeyond h
  | keyaes imm => exact fails_of_requestBeyond h
  | geniv imm => exact fails_of_requestBeyond h
  | genkeyUndef cls imm => exact h.elim
  | pad imm =>
    obtain ⟨h1, h2⟩ := blockSize_of_not_outOfDomain hd
    exact ⟨_, exec_pad imm s, padCommand_capacityExceeded h1 h2 h ▸ raise_fails .capacityExceeded 0 s⟩
  | unpad => exact ⟨_, exec_unpad s, unpadCommand_capacityExceeded h ▸ raise_fails .capacityExceeded 0 s⟩
  | clr => exact h.elim

/-- A command that reports a failure ends by the failure completion with its code. -/
theorem fails_of_reports {i : Instr} {s : State} {f : Failure} {n : Nat} (h : Reports i s f n) :
    ∃ t, exec i s = .next t ∧ FailsWith (statusFailure f) n s t := by
  cases h with
  | invalidParameter hd => exact fails_of_outOfDomain hd s
  | capacityExceeded hd hc => exact fails_of_beyondCapacity hd hc
  | entropySourceError n k hn hc hk hb hu => exact fails_of_unanswered (exec_of_requests hn s) hc hk hb hu
  | invalidPadding hi hc hv =>
    subst hi
    exact ⟨_, exec_unpad s, unpadCommand_invalidPadding hc hv ▸ raise_fails .invalidPadding 0 s⟩

/-- A command that delivers a result ends by the success completion after these draws, with this result when OBUF was
canonical before. -/
theorem succeeds_of_delivers {i : Instr} {s : State} {r : List Byte} {n : Nat} (h : Delivers s i r n) :
    ∃ t r', exec i s = .next t ∧ SucceedsWith r' n s t ∧ (s.obuf.wf = true → r' = r) := by
  cases h with
  | generated hn hc hb =>
    obtain ⟨r', hl, hr, hg⟩ := genBytes_delivers hc hb
    refine ⟨_, r', exec_of_requests hn s, ?_, hr⟩
    rw [hg]
    exact complete_succeeds r' _ s (hl ▸ hc.trans_lt s.capr.isLt)
  | padded imm hfit => exact ⟨_, _, exec_pad imm s, padCommand_succeeds hfit, fun _ => rfl⟩
  | unpadded hc hv => exact ⟨_, _, exec_unpad s, unpadCommand_succeeds hc hv, fun _ => rfl⟩

/-! ### The code in ERR -/

theorem failsWith_of_reports {i : Instr} {s t : State} {f : Failure} {n : Nat} (he : exec i s = .next t)
    (h : Reports i s f n) : FailsWith (statusFailure f) n s t := by
  obtain ⟨t', he', hf⟩ := fails_of_reports h
  rwa [next_inj (he.symm.trans he')]

theorem err_of_reports {i : Instr} {s t : State} {f : Failure} {n : Nat} (he : exec i s = .next t)
    (h : Reports i s f n) : t.err = failureCode f := by
  rw [State.err, (failsWith_of_reports he h).status, err_statusFailure]

theorem err_of_delivers {i : Instr} {s t : State} {r : List Byte} {n : Nat} (he : exec i s = .next t)
    (h : Delivers s i r n) : t.err = 0#4 := by
  obtain ⟨t', r', he', hs, -⟩ := succeeds_of_delivers h
  rw [next_inj (he.symm.trans he'), State.err, hs.status]
  decide

theorem clearEngine_err (s : State) : (clearEngine s).err = 0#4 := by
  rw [State.err, clearEngine_status]
  decide

theorem err_zero_or_reports {i : Instr} {s t : State} (he : exec i s = .next t) :
    t.err = 0#4 ∨ ∃ f n, Reports i s f n := by
  by_cases hclr : i = .clr
  · subst hclr
    rw [← next_inj he]
    exact .inl (clearEngine_err s)
  · obtain h | ⟨r, n, h⟩ := reports_or_delivers hclr s
    · exact .inr h
    · exact .inl (err_of_delivers he h)

theorem failureCode_ne_zero (f : Failure) : failureCode f ≠ 0#4 := by cases f <;> decide

theorem failureCode_injective : Function.Injective failureCode := by
  intro f g
  cases f <;> cases g <;> decide

/-- A failure's code stands in ERR exactly under its condition: the codes are distinct, and none is 0. -/
theorem err_eq_failureCode_iff {i : Instr} {s t : State} (he : exec i s = .next t) (f : Failure) :
    t.err = failureCode f ↔ ∃ n, Reports i s f n := by
  constructor
  · intro h
    obtain h0 | ⟨g, n, hg⟩ := err_zero_or_reports he
    · exact absurd (h.symm.trans h0) (failureCode_ne_zero f)
    · obtain rfl := failureCode_injective (h.symm.trans (err_of_reports he hg))
      exact ⟨n, hg⟩
  · rintro ⟨n, h⟩
    exact err_of_reports he h

/-! ### The rules of the failures -/

/-- Settles O29: ERR 1 stands exactly under the condition of InvalidParameter, which makes no draw. -/
theorem invalidParameterExactlyOutOfDomain : Obligations.InvalidParameterExactlyOutOfDomain := by
  intro i s
  obtain ⟨t, he, -⟩ := exec_ends i s
  have hiff : (∃ n, Reports i s .invalidParameter n) ↔ OutOfDomain i := by
    refine ⟨?_, fun hd => ⟨0, .invalidParameter hd⟩⟩
    rintro ⟨_, hr⟩
    cases hr with
    | invalidParameter hd => exact hd
  exact ⟨t, he, (err_eq_failureCode_iff he .invalidParameter).trans hiff,
    fun hd => failsWith_of_reports he (.invalidParameter hd)⟩

/-- Settles O30: ERR 2 stands exactly under the condition of InvalidPadding, which only UNPAD meets. -/
theorem invalidPaddingExactlyWhenACheckFails : Obligations.InvalidPaddingExactlyWhenACheckFails := by
  intro i s
  obtain ⟨t, he, -⟩ := exec_ends i s
  have hiff := err_eq_failureCode_iff he .invalidPadding
  refine ⟨t, he, hiff.trans ⟨?_, ?_⟩, fun h2 => ?_⟩
  · rintro ⟨_, hr⟩
    cases hr with
    | invalidPadding hi hc hv => exact ⟨hi, hc, hv⟩
  · rintro ⟨hi, hc, hv⟩
    exact ⟨0, .invalidPadding hi hc hv⟩
  · obtain ⟨_, hr⟩ := hiff.1 h2
    cases hr with
    | invalidPadding hi hc hv => exact failsWith_of_reports he (.invalidPadding hi hc hv)

/-- An unanswered draw among those a request needs makes it report EntropySourceError, at the first of them. -/
theorem reports_of_unanswered {i : Instr} {s : State} {n k : Nat} (hn : Requests i n) (hc : n ≤ s.cap) (hk : k < n)
    (hu : s.nthDraw k = .unavailable) : ∃ m, Reports i s .entropySourceError m := by
  obtain ⟨bs, rfl, hb⟩ | ⟨j, hj, hb, hj'⟩ := draws_cases s n
  · cases (hb k hk).symm.trans hu
  · exact ⟨j + 1, .entropySourceError n j hn hc hj hb hj'⟩

/-- Settles O31: ERR 3 stands exactly under the condition of EntropySourceError, whose draw is the first unanswered. -/
theorem entropySourceErrorExactlyWhenUnanswered : Obligations.EntropySourceErrorExactlyWhenUnanswered := by
  intro i s
  obtain ⟨t, he, -⟩ := exec_ends i s
  have hiff := err_eq_failureCode_iff he .entropySourceError
  refine ⟨t, he, hiff.trans ⟨?_, ?_⟩, fun h3 => ?_⟩
  · rintro ⟨_, hr⟩
    cases hr with
    | entropySourceError n k hn hc hk hb hu => exact ⟨n, k, hn, hc, hk, hu⟩
  · rintro ⟨n, k, hn, hc, hk, hu⟩
    exact reports_of_unanswered hn hc hk hu
  · obtain ⟨_, hr⟩ := hiff.1 h3
    have hfails := failsWith_of_reports he hr
    cases hr with
    | entropySourceError n k hn hc hk hb hu => exact ⟨k, hu, hb, hfails⟩

/-- A failure reported with no draw made leaves its code and the number of draws. -/
theorem err_and_draws_of_reports {i : Instr} {s t : State} {f : Failure} (he : exec i s = .next t)
    (h : Reports i s f 0) : t.err = failureCode f ∧ t.draws = s.draws :=
  ⟨err_of_reports he h, (failsWith_of_reports he h).drawn.draws⟩

theorem writeCmd_of_command {w : Word} {i : Instr} (h : decode w = .command i) (s : State) :
    writeCmd w s = exec i s := by
  rw [writeCmd, h]

/-- Settles O34: each group of R104 is the condition of its failure, given that those before it do not hold. -/
theorem failurePriority : Obligations.FailurePriority := by
  intro w s
  rw [performAccess_writeCmd]
  obtain ⟨t, hw, -⟩ := writeCmd_ends w s
  refine ⟨t, hw, fun hill => ?illegal, fun i hi => ?command⟩
  case illegal =>
    obtain ⟨why, hd⟩ := (illegalCommandWord_iff w).1 hill
    rw [next_inj (hw.symm.trans (writeCmd_of_refused hd s))]
    exact ⟨raise_err .illegalCommand s, rfl⟩
  case command =>
    rw [writeCmd_of_command hi] at hw
    refine ⟨fun hd => err_and_draws_of_reports hw (.invalidParameter hd),
      fun hd hc => err_and_draws_of_reports hw (.capacityExceeded hd hc),
      fun hd hc => ⟨fun h3 => ?_, fun h2 => ?_, ?_⟩⟩
    · obtain ⟨_, hr⟩ := (err_eq_failureCode_iff hw .entropySourceError).1 h3
      cases hr with
      | entropySourceError n k hn => exact generates_of_requests hn
    · obtain ⟨_, hr⟩ := (err_eq_failureCode_iff hw .invalidPadding).1 h2
      cases hr with
      | invalidPadding hu => exact hu
    · obtain h0 | ⟨f, n, hr⟩ := err_zero_or_reports hw
      · exact .inl h0
      · have herr := err_of_reports hw hr
        cases hr with
        | invalidParameter hd' => exact absurd hd' hd
        | capacityExceeded _ hc' => exact absurd hc' hc
        | entropySourceError => exact .inr (.inr herr)
        | invalidPadding => exact .inr (.inl herr)

/-! ### What the outcome depends on (60 R103) -/

/-- Two states a command cannot tell apart: one capacity, for PAD and UNPAD one input, and for a generation command the
same answers to the draws it makes. -/
structure SameInputs (i : Instr) (s s' : State) : Prop where
  capr : s.capr = s'.capr
  input : i = .unpad ∨ (∃ imm, i = .pad imm) →
    s.ilen = s'.ilen ∧ ∀ k, k < s.ilen.toNat → k < s.cap → s.ibuf.read k = s'.ibuf.read k
  draws : ∀ n k, Requests i n → n ≤ s.cap → k < n → (∀ j, j < k → ∃ b, s.nthDraw j = .byte b) →
    s.nthDraw k = s'.nthDraw k

theorem SameInputs.cap {i : Instr} {s s' : State} (h : SameInputs i s s') : s.cap = s'.cap :=
  congrArg BitVec.toNat h.capr

/-- The three checks look at the input only (41_pkcs7 R79). -/
theorem validPadding_of_sameReads {m m' : Memory} {len : Nat} (h : ∀ k, k < len → m.read k = m'.read k)
    (hv : ValidPadding m len) : ValidPadding m' len := by
  obtain ⟨hl, h1, h2, hall⟩ := hv
  rw [ValidPadding, ← h (len - 1) (by omega)]
  refine ⟨hl, h1, h2, fun j hj hj' => ?_⟩
  rw [← h j (by omega)]
  exact hall j hj hj'

theorem validPadding_congr {m m' : Memory} {len : Nat} (h : ∀ k, k < len → m.read k = m'.read k) :
    ValidPadding m len ↔ ValidPadding m' len :=
  ⟨validPadding_of_sameReads h, validPadding_of_sameReads fun k hk => (h k hk).symm⟩

/-- UNPAD's result is part of its input, so it looks at the input only. -/
theorem unpadded_congr {s s' : State} (hilen : s.ilen = s'.ilen)
    (h : ∀ k, k < s.ilen.toNat → s.ibuf.read k = s'.ibuf.read k) (hv : ValidPadding s.ibuf s.ilen.toNat) :
    unpadded s = unpadded s' := by
  have hl := hv.1
  rw [unpadded, unpadded, ← hilen, ← h (s.ilen.toNat - 1) (by omega)]
  exact readRange_congr fun k _ hk => h k (by omega)

theorem padded_congr {s s' : State} (blockSize : Nat) (hilen : s.ilen = s'.ilen)
    (h : ∀ k, k < s.ilen.toNat → s.ibuf.read k = s'.ibuf.read k) : padded blockSize s = padded blockSize s' := by
  have hin : inputBytes s = inputBytes s' := by
    rw [inputBytes, inputBytes, ← hilen]
    exact readRange_congr fun k _ hk => h k (by omega)
  rw [padded, padded, hin, hilen]

section Transport

variable {i : Instr} {s s' : State} (h : SameInputs i s s')
include h

theorem beyondCapacity_of_sameInputs (hc : BeyondCapacity s i) : BeyondCapacity s' i := by
  have request (hr : RequestBeyond s i) : RequestBeyond s' i := by rwa [RequestBeyond, ← h.cap]
  cases i with
  | gen imm => exact request hc
  | keydes imm => exact request hc
  | key3des imm => exact request hc
  | keyaes imm => exact request hc
  | geniv imm => exact request hc
  | genkeyUndef cls imm => exact hc
  | pad imm => rwa [BeyondCapacity, ← h.cap, ← (h.input (.inr ⟨imm, rfl⟩)).1]
  | unpad => rwa [BeyondCapacity, ← h.cap, ← (h.input (.inl rfl)).1]
  | clr => exact hc

/-- PAD and UNPAD on a length that fits: the whole input is the same. -/
theorem reads_of_sameInputs (hi : i = .unpad ∨ ∃ imm, i = .pad imm) (hc : s.ilen.toNat ≤ s.cap) :
    ∀ k, k < s.ilen.toNat → s.ibuf.read k = s'.ibuf.read k :=
  fun k hk => (h.input hi).2 k hk (by omega)

theorem reports_of_sameInputs {f : Failure} {n : Nat} (hr : Reports i s f n) : Reports i s' f n := by
  cases hr with
  | invalidParameter hd => exact .invalidParameter hd
  | capacityExceeded hd hc => exact .capacityExceeded hd (beyondCapacity_of_sameInputs h hc)
  | entropySourceError n k hn hc hk hb hu =>
    have hsame (j : Nat) (hj : j ≤ k) : s.nthDraw j = s'.nthDraw j :=
      h.draws n j hn hc (by omega) fun l hl => hb l (by omega)
    exact .entropySourceError n k hn (h.cap ▸ hc) hk (fun j hj => hsame j hj.le ▸ hb j hj) (hsame k le_rfl ▸ hu)
  | invalidPadding hi hc hv =>
    have hilen := (h.input (.inl hi)).1
    have hreads := reads_of_sameInputs h (.inl hi) hc
    exact .invalidPadding hi (by rwa [← h.cap, ← hilen]) (by rwa [← hilen, ← validPadding_congr hreads])

theorem delivers_of_sameInputs {r : List Byte} {n : Nat} (hr : Delivers s i r n) : Delivers s' i r n := by
  cases hr with
  | generated hn hc hb =>
    refine .generated hn (h.cap ▸ hc) fun k hk => ?_
    rw [← h.draws _ k hn hc hk fun j hj => ⟨_, hb j (by omega)⟩, hb k hk]
  | padded imm hfit =>
    have hi : Instr.pad imm = .unpad ∨ ∃ imm', Instr.pad imm = .pad imm' := .inr ⟨imm, rfl⟩
    obtain ⟨h1, h2, hc⟩ := hfit
    have hilen := (h.input hi).1
    rw [padded_congr imm.toNat hilen (reads_of_sameInputs h hi (by omega))]
    exact .padded imm ⟨h1, h2, by rwa [← h.cap, ← hilen]⟩
  | unpadded hc hv =>
    have hilen := (h.input (.inl rfl)).1
    have hreads := reads_of_sameInputs h (.inl rfl) hc
    rw [unpadded_congr hilen hreads hv]
    exact .unpadded (by rwa [← h.cap, ← hilen]) (by rwa [← hilen, ← validPadding_congr hreads])

end Transport

/-- The part of a command's end that R103 speaks of: STATUS, OLEN and OBUF. -/
def SameOutcome (t t' : State) : Prop := t.status = t'.status ∧ t.olen = t'.olen ∧ t.obuf = t'.obuf

theorem sameOutcome_of_failsWith {status : Byte} {n n' : Nat} {s s' t t' : State} (h : FailsWith status n s t)
    (h' : FailsWith status n' s' t') : SameOutcome t t' :=
  ⟨h.status.trans h'.status.symm, h.olen.trans h'.olen.symm,
    wf_ext h.form h'.form fun i => (h.result i).trans (h'.result i).symm⟩

theorem sameOutcome_of_succeedsWith {r : List Byte} {n n' : Nat} {s s' t t' : State} (h : SucceedsWith r n s t)
    (h' : SucceedsWith r n' s' t') : SameOutcome t t' :=
  ⟨h.status.trans h'.status.symm, BitVec.eq_of_toNat_eq (h.olen.trans h'.olen.symm),
    wf_ext h.form h'.form fun i => (h.result i).trans (h'.result i).symm⟩

theorem succeedsWith_of_delivers {i : Instr} {s t : State} {r : List Byte} {n : Nat} (hw : s.obuf.wf = true)
    (he : exec i s = .next t) (h : Delivers s i r n) : SucceedsWith r n s t := by
  obtain ⟨t', r', he', hs, hr⟩ := succeeds_of_delivers h
  rwa [next_inj (he.symm.trans he'), ← hr hw]

/-- Every command but CLR ends with the outcome its inputs fix, and keeps its inputs. -/
theorem sameOutcome_of_sameInputs {i : Instr} {s s' t t' : State} (hclr : i ≠ .clr) (hw : s.obuf.wf = true)
    (hw' : s'.obuf.wf = true) (h : SameInputs i s s') (he : exec i s = .next t) (he' : exec i s' = .next t') :
    SameOutcome t t' ∧ InputsKept s t := by
  obtain ⟨f, n, hr⟩ | ⟨r, n, hr⟩ := reports_or_delivers hclr s
  · have hf := failsWith_of_reports he hr
    exact ⟨sameOutcome_of_failsWith hf (failsWith_of_reports he' (reports_of_sameInputs h hr)), hf.kept⟩
  · have hs := succeedsWith_of_delivers hw he hr
    exact ⟨sameOutcome_of_succeedsWith hs (succeedsWith_of_delivers hw' he' (delivers_of_sameInputs h hr)), hs.kept⟩

/-- Settles O33: the conditions of a command's failures and of its success, and its result, are the same in both states;
CLR and an illegal word leave constants. -/
theorem outcomeDependsOnTheInputsOnly : Obligations.OutcomeDependsOnTheInputsOnly := by
  refine ⟨?command, ?illegal⟩
  case command =>
    intro i s s' t t' hw hw' hcapr hin hdraws he he'
    by_cases hclr : i = .clr
    · subst hclr
      obtain rfl := next_inj he
      obtain rfl := next_inj he'
      exact ⟨rfl, rfl, rfl, fun hne => absurd rfl hne, fun _ => ⟨rfl, read_zero⟩⟩
    · obtain ⟨⟨hstatus, holen, hobuf⟩, hkept⟩ :=
        sameOutcome_of_sameInputs hclr hw hw' ⟨hcapr, hin, hdraws⟩ he he'
      exact ⟨hstatus, holen, hobuf, fun _ => ⟨hkept.ilen, hkept.ibuf⟩, fun h => absurd h hclr⟩
  case illegal =>
    intro w s s' hill
    obtain ⟨t, he, hf⟩ := (endsWithIllegalCommand hill).2 s
    obtain ⟨t', he', hf'⟩ := (endsWithIllegalCommand hill).2 s'
    obtain ⟨hstatus, holen, hobuf⟩ := sameOutcome_of_failsWith hf hf'
    exact ⟨t, t', he, he', hstatus, holen, hobuf, hf.kept.ilen, hf.kept.ibuf⟩

end Sys2Proof.Exceptions

/-! PROOF. The command word (30_encoding R47 to R52): the encoder and the decoding procedure undo each other, and the
match and mask table names the same command. -/

namespace Sys2Proof.Encoding

open Sys2Proof.Laws Sys2Proof.KeyGeneration Sys2Proof.Pkcs7 Sys2Proof.ControlAndHost

/-! ### Decoding the word of a command -/

/-- Settles O1: the word's fields are the command's opcode, class and operand, and R51 reads the command off them. -/
theorem decodeOfEncodeGivesTheCommandBack : Obligations.DecodeOfEncodeGivesTheCommandBack := by
  intro i hwf
  obtain ⟨ho, hc, hi⟩ := EncodeFields.of_packWord i
  cases i with
  | gen imm => rw [decode_opcode_gen ho hc, hi]; rfl
  | keydes imm => rw [decode_genkey_class ho hc, hi]; rfl
  | key3des imm => rw [decode_genkey_class ho hc, hi]; rfl
  | keyaes imm => rw [decode_genkey_class ho hc, hi]; rfl
  | geniv imm => rw [decode_genkey_class ho hc, hi]; rfl
  | genkeyUndef cls imm =>
    have hcls : 4 ≤ cls.toNat := of_decide_eq_true hwf
    rw [decode_genkey_class ho hc, hi]
    exact congrArg _ (decodeGenkey_undefined hcls imm)
  | pad imm => rw [decode_opcode_pad ho hc, hi]; rfl
  | unpad => exact decode_opcode_unpad ho hc hi
  | clr => exact decode_opcode_clr ho hc hi

/-! ### The word of a decoded command -/

/-- A command is well formed and has these three fields. -/
def HasFields (i : Instr) (opc cls : Byte) (imm : Half) : Prop :=
  i.wellFormed = true ∧ i.opcode = opc ∧ i.keyClass = cls ∧ i.operand = imm

/-- A class that is none of the four of 30_encoding R50 is 4 or more. -/
theorem four_le_class {cls : Byte} (h0 : cls ≠ 0x00#8) (h1 : cls ≠ 0x01#8) (h2 : cls ≠ 0x02#8) (h3 : cls ≠ 0x03#8) :
    4 ≤ cls.toNat := by
  bv_omega

theorem decodeGenkey_fields (cls : Byte) (imm : Half) : HasFields (decodeGenkey cls imm) 0x02#8 cls imm := by
  rw [decodeGenkey]
  split
  case isTrue h => exact ⟨rfl, rfl, h.symm, rfl⟩
  split
  case isTrue h => exact ⟨rfl, rfl, h.symm, rfl⟩
  split
  case isTrue h => exact ⟨rfl, rfl, h.symm, rfl⟩
  split
  case isTrue h => exact ⟨rfl, rfl, h.symm, rfl⟩
  case isFalse h0 h1 h2 h3 => exact ⟨decide_eq_true (four_le_class h0 h1 h2 h3), rfl, rfl, rfl⟩

/-- A check on a reserved field lets a command through when the field is as it must be. -/
theorem command_of_check {p : Prop} [Decidable p] {d : Decoded} {e : IllegalWord} {i : Instr}
    (h : (if p then d else .illegal e) = .command i) : p ∧ d = .command i := by
  split at h
  · next hp => exact ⟨hp, h⟩
  · cases h

theorem decode_fields {w : Word} {i : Instr} (h : decode w = .command i) :
    HasFields i (opcOf w) (clsOf w) (immOf w) := by
  rw [decode] at h
  split at h
  case isTrue ho =>
    obtain ⟨hc, h⟩ := command_of_check h
    cases h
    exact ⟨rfl, ho.symm, hc.symm, rfl⟩
  split at h
  case isTrue ho =>
    cases h
    exact ho ▸ decodeGenkey_fields _ _
  split at h
  case isTrue ho =>
    obtain ⟨hc, h⟩ := command_of_check h
    cases h
    exact ⟨rfl, ho.symm, hc.symm, rfl⟩
  split at h
  case isTrue ho =>
    obtain ⟨hc, h⟩ := command_of_check h
    obtain ⟨hi, h⟩ := command_of_check h
    cases h
    exact ⟨rfl, ho.symm, hc.symm, hi.symm⟩
  split at h
  case isTrue ho =>
    obtain ⟨hc, h⟩ := command_of_check h
    obtain ⟨hi, h⟩ := command_of_check h
    cases h
    exact ⟨rfl, ho.symm, hc.symm, hi.symm⟩
  case isFalse => cases h

/-- Settles O2: a decoded command has the word's fields, and a word is its fields packed. -/
theorem decodedCommandEncodesToItsWord : Obligations.DecodedCommandEncodesToItsWord := by
  intro w i h
  obtain ⟨hwf, ho, hc, hi⟩ := decode_fields h
  refine ⟨hwf, ?_⟩
  rw [encode, ho, hc, hi, packWord_fields]

/-! ### The match and mask table -/

theorem packWord_and (opc opc' cls cls' : Byte) (imm imm' : Half) :
    packWord opc cls imm &&& packWord opc' cls' imm' = packWord (opc &&& opc') (cls &&& cls') (imm &&& imm') := by
  rw [packWord, packWord, packWord, BitVec.and_append, BitVec.and_append]

theorem packWord_inj {opc opc' cls cls' : Byte} {imm imm' : Half} :
    packWord opc cls imm = packWord opc' cls' imm' ↔ opc = opc' ∧ cls = cls' ∧ imm = imm' := by
  refine ⟨fun h => ⟨?_, ?_, ?_⟩, by rintro ⟨rfl, rfl, rfl⟩; rfl⟩
  · simpa using congrArg opcOf h
  · simpa using congrArg clsOf h
  · simpa using congrArg immOf h

/-- A masked word, field by field. -/
theorem and_packWord_eq_iff (w : Word) (mopc opc mcls cls : Byte) (mimm imm : Half) :
    w &&& packWord mopc mcls mimm = packWord opc cls imm ↔
      opcOf w &&& mopc = opc ∧ clsOf w &&& mcls = cls ∧ immOf w &&& mimm = imm := by
  rw [← packWord_inj, ← packWord_and, packWord_fields]

/-- Row 6 looks at the opcode only. -/
theorem opcode_row_iff (w : Word) (opc : Byte) :
    w &&& 0xFF000000#32 = packWord opc 0#8 0#16 ↔ opcOf w = opc := by
  rw [show 0xFF000000#32 = packWord (BitVec.allOnes 8) 0#8 0#16 by decide, and_packWord_eq_iff]
  simp only [BitVec.and_allOnes, BitVec.and_zero, and_true]

/-- Rows 1 to 5 and 7 look at the opcode and the class. -/
theorem class_row_iff (w : Word) (opc cls : Byte) :
    w &&& 0xFFFF0000#32 = packWord opc cls 0#16 ↔ opcOf w = opc ∧ clsOf w = cls := by
  rw [show 0xFFFF0000#32 = packWord (BitVec.allOnes 8) (BitVec.allOnes 8) 0#16 by decide, and_packWord_eq_iff]
  simp only [BitVec.and_allOnes, BitVec.and_zero, and_true]

/-- Rows 8 and 9 look at the whole word. -/
theorem word_row_iff (w : Word) (opc : Byte) :
    w &&& 0xFFFFFFFF#32 = packWord opc 0#8 0#16 ↔ opcOf w = opc ∧ clsOf w = 0#8 ∧ immOf w = 0#16 := by
  rw [show 0xFFFFFFFF#32 = packWord (BitVec.allOnes 8) (BitVec.allOnes 8) (BitVec.allOnes 16) by decide,
    and_packWord_eq_iff]
  simp only [BitVec.and_allOnes]

theorem map_find?_cons {α β : Type} (p : α → Prop) [DecidablePred p] (f : α → β) (a : α) (l : List α) :
    ((a :: l).find? fun x => decide (p x)).map f =
      if p a then some (f a) else (l.find? fun x => decide (p x)).map f := by
  by_cases h : p a <;> simp [h]

@[simp] theorem mnemonic?_command (i : Instr) : (Decoded.command i).mnemonic? = some i.mnemonic := rfl

@[simp] theorem mnemonic?_illegal (why : IllegalWord) : (Decoded.illegal why).mnemonic? = none := rfl

theorem decodeGenkey_mnemonic (cls : Byte) (imm : Half) :
    (decodeGenkey cls imm).mnemonic =
      if cls = 0x00#8 then "KEYDES" else if cls = 0x01#8 then "KEY3DES" else if cls = 0x02#8 then "KEYAES"
      else if cls = 0x03#8 then "GENIV" else "GENKEY.UNDEF" := by
  simp only [decodeGenkey, apply_ite Instr.mnemonic]
  rfl

/-- The table and the procedure look at the same fields in the same order (30_encoding R51, R52), opcode by opcode. -/
theorem firstMatch_eq (w : Word) : firstMatch w = (decode w).mnemonic? := by
  have gen : w &&& 0xFFFF0000#32 = 0x01000000#32 ↔ _ := class_row_iff w 0x01#8 0x00#8
  have keydes : w &&& 0xFFFF0000#32 = 0x02000000#32 ↔ _ := class_row_iff w 0x02#8 0x00#8
  have key3des : w &&& 0xFFFF0000#32 = 0x02010000#32 ↔ _ := class_row_iff w 0x02#8 0x01#8
  have keyaes : w &&& 0xFFFF0000#32 = 0x02020000#32 ↔ _ := class_row_iff w 0x02#8 0x02#8
  have geniv : w &&& 0xFFFF0000#32 = 0x02030000#32 ↔ _ := class_row_iff w 0x02#8 0x03#8
  have undef : w &&& 0xFF000000#32 = 0x02000000#32 ↔ _ := opcode_row_iff w 0x02#8
  have pad : w &&& 0xFFFF0000#32 = 0x10000000#32 ↔ _ := class_row_iff w 0x10#8 0x00#8
  have unpad : w &&& 0xFFFFFFFF#32 = 0x11000000#32 ↔ _ := word_row_iff w 0x11#8
  have clr : w &&& 0xFFFFFFFF#32 = 0x20000000#32 ↔ _ := word_row_iff w 0x20#8
  simp only [firstMatch, opcodeRows, map_find?_cons, gen, keydes, key3des, keyaes, geniv, undef, pad, unpad, clr,
    List.find?_nil, Option.map_none]
  rw [decode]
  by_cases hgen : opcOf w = 0x01#8
  · simp [hgen, apply_ite Decoded.mnemonic?, Instr.mnemonic]
  by_cases hgenkey : opcOf w = 0x02#8
  · simp [hgenkey, decodeGenkey_mnemonic, apply_ite some]
  by_cases hpad : opcOf w = 0x10#8
  · simp [hpad, apply_ite Decoded.mnemonic?, Instr.mnemonic]
  by_cases hunpad : opcOf w = 0x11#8
  · simp [hunpad, ite_and, apply_ite Decoded.mnemonic?, Instr.mnemonic]
  by_cases hclr : opcOf w = 0x20#8
  · simp [hclr, ite_and, apply_ite Decoded.mnemonic?, Instr.mnemonic]
  · simp [hgen, hgenkey, hpad, hunpad, hclr]

/-- Settles O3: each row looks at the fields decoding looks at, in the same order; and only an undefined class bears the
mnemonic of row 6. -/
theorem firstMatchingRowNamesTheCommand : Obligations.FirstMatchingRowNamesTheCommand := by
  refine fun w => ⟨firstMatch_eq w, fun h => ?_⟩
  rw [firstMatch_eq] at h
  cases hd : decode w with
  | illegal why =>
    rw [hd] at h
    cases h
  | command i =>
    rw [hd, mnemonic?_command] at h
    obtain ⟨hwf, -, hc, -⟩ := decode_fields hd
    rw [← hc]
    cases i with
    | genkeyUndef cls imm => exact of_decide_eq_true hwf
    | _ => exact absurd (Option.some.inj h) (by simp [Instr.mnemonic])

/-! ### The source's calls -/

/-- Settles O5: each word is evaluated by the decoding procedure. -/
theorem commandWordsOfTheSourcesCalls : Obligations.CommandWordsOfTheSourcesCalls := by
  rw [Obligations.CommandWordsOfTheSourcesCalls]
  decide

end Sys2Proof.Encoding

/-! PROOF. The invariant of observable states at reset and along a step (10_state R26, R27), and the capacity, which
nothing changes (10_state R22). -/

namespace Sys2Proof.Invariant

open Sys2Proof.Machine Sys2Proof.Laws

/-- Settles O44: each end of a line of the script keeps the invariant and CAPR. -/
theorem stepKeepsTheObservableInvariant : Obligations.StepKeepsTheObservableInvariant :=
  fun _ _ => step_keeps_inv

/-- Settles O46: the reset values meet every clause, whatever the capacity; the recommended one is legal. -/
theorem resetMeetsTheObservableInvariant : Obligations.ResetMeetsTheObservableInvariant :=
  ⟨fun _ => resetOf_inv, resetOf_inv (by decide)⟩

theorem commandEnd_capr {s t : State} (h : CommandEnd s t) : t.capr = s.capr := by
  cases h with
  | failed f n => rfl
  | completed r n hr => rfl
  | cleared => rfl

theorem lineEnd_capr {s t : State} (h : LineEnd s t) : t.capr = s.capr := by
  cases h with
  | returned v => rfl
  | wroteIlen v => rfl
  | wroteByte i v hi => rfl
  | ranCommand _ hc => exact commandEnd_capr hc
  | expanded ls => rfl
  | wasReset => rfl

/-- Settles O47: no end of a line of the script changes CAPR; its register number can be read and not written. -/
theorem caprIsConstant : Obligations.CaprIsConstant := by
  refine ⟨fun s t h => ?step, fun s => rfl, fun v width s => rfl⟩
  case step =>
    obtain rfl | ⟨l, rest, -, he⟩ := step_end h
    · rfl
    · exact lineEnd_capr (s := s.setScript rest) he

end Sys2Proof.Invariant

/-! PROOF. Host accesses (20_memory R31, R36, R38; 42_control_and_host R88 to R92): which are refused, and what
each of the others changes. -/

namespace Sys2Proof.HostAccesses

open Sys2Proof.Machine Sys2Proof.Laws Sys2Proof.IllegalWords Sys2Proof.ControlAndHost

/-! ### Reads and writes that are not reserved -/

/-- Settles O36: a read of a register at its width returns its value. -/
theorem registerReads : Obligations.RegisterReads :=
  fun _ => ⟨rfl, rfl, rfl, rfl⟩

theorem readBuffer_of_lt {i : Nat} {s : State} (m : Memory) (h : i < s.cap) :
    readBuffer m i 1 s = returned (.byte (m.read i)) s := by
  rw [readBuffer, if_neg (Nat.not_le.2 h), if_pos rfl]

theorem performAccess_writeByte {i : Nat} {s : State} (b : Byte) (h : i < s.cap) :
    performAccess (.write .ibuf i 1 b.toNat) s = .next (s.setIbuf (s.ibuf.write i b)) :=
  performLine_writeByte b s h

/-- Settles O38: the write is a write of the buffer, after which a read is `read_write`. -/
theorem inputBufferWriteAndRead : Obligations.InputBufferWriteAndRead := by
  intro i b s hw hi
  exact ⟨⟨_, performAccess_writeByte b hi, fun j => read_write hw i j b, write_keeps_wf i b hw, rfl⟩,
    readBuffer_of_lt s.ibuf hi⟩

/-- Settles O39: the read returns the byte; from OLEN on it is clause (b) of the invariant. -/
theorem outputBufferRead : Obligations.OutputBufferRead := by
  intro i s h hi
  exact ⟨readBuffer_of_lt s.obuf hi, fun ho => h.restZero i ho hi⟩

/-! ### Reserved accesses (20_memory R38) -/

/-- A register the host may read is read at its width or refused. -/
theorem hostRead_register {n size : Nat} (h : readWidth n = some size) (width : Nat) (s : State) :
    ∃ v, hostRead .reg n width s = readRegister size width v s := by
  rw [readWidth.eq_def] at h
  split at h <;> cases h <;> exact ⟨_, rfl⟩

/-- A register the host may write takes a value of its width that fits, and refuses all else. -/
theorem hostWrite_register {n size : Nat} (h : writeWidth n = some size) (width value : Nat) (s : State) :
    ∃ o, hostWrite .reg n width value s =
      if width = size then if value < 2 ^ (8 * size) then o else .refused .valueTooWide else .refused .wrongWidth := by
  rw [writeWidth.eq_def] at h
  split at h <;> cases h <;> exact ⟨_, rfl⟩

theorem hostRead_buffer {space : Space} (h : space ≠ .reg) (i width : Nat) (s : State) :
    ∃ m, hostRead space i width s = readBuffer m i width s := by
  cases space with
  | reg => exact absurd rfl h
  | ibuf => exact ⟨_, rfl⟩
  | obuf => exact ⟨_, rfl⟩

theorem readBuffer_refused {i width : Nat} {s : State} (m : Memory) (h : s.cap ≤ i ∨ width ≠ 1) :
    ∃ r, readBuffer m i width s = .refused r := by
  rw [readBuffer]
  split
  · exact ⟨_, rfl⟩
  · exact ⟨_, if_neg (by omega)⟩

theorem hostWrite_buffer_refused {space : Space} {i width value : Nat} {s : State} (hs : space ≠ .reg)
    (h : s.cap ≤ i ∨ width ≠ 1 ∨ 2 ^ 8 ≤ value) : ∃ r, hostWrite space i width value s = .refused r := by
  cases space with
  | reg => exact absurd rfl hs
  | ibuf =>
    simp only [hostWrite]
    split
    · exact ⟨_, rfl⟩
    · split
      · exact ⟨_, if_neg (by omega)⟩
      · exact ⟨_, rfl⟩
  | obuf => exact ⟨_, rfl⟩

theorem refused_of_reserved {a : HostAccess} {s : State} (h : Reserved s.cap a) :
    ∃ r, performAccess a s = .refused r := by
  have buffer {space : Space} {i width : Nat} (hs : space ≠ .reg) (h : s.cap ≤ i ∨ width ≠ 1) :
      ∃ r, hostRead space i width s = .refused r := by
    obtain ⟨m, hm⟩ := hostRead_buffer hs i width s
    exact hm ▸ readBuffer_refused m h
  cases h with
  | readOfCmd width => exact ⟨_, rfl⟩
  | writeOfStatus width value => exact ⟨_, rfl⟩
  | writeOfOlen width value => exact ⟨_, rfl⟩
  | writeOfCapr width value => exact ⟨_, rfl⟩
  | readOfRegister n width hn =>
    obtain ⟨k, rfl⟩ := Nat.exists_eq_add_of_le' hn
    exact ⟨_, rfl⟩
  | writeOfRegister n width value hn =>
    obtain ⟨k, rfl⟩ := Nat.exists_eq_add_of_le' hn
    exact ⟨_, rfl⟩
  | readBeyond space i width hs hi => exact buffer hs (.inl hi)
  | writeBeyond space i width value hs hi => exact hostWrite_buffer_refused hs (.inl hi)
  | writeOfObuf i width value => exact ⟨_, rfl⟩
  | readWidthOfRegister n size width hn hw =>
    obtain ⟨v, hv⟩ := hostRead_register hn width s
    exact ⟨_, hv.trans (if_neg hw)⟩
  | writeWidthOfRegister n size width value hn hw =>
    obtain ⟨o, ho⟩ := hostWrite_register hn width value s
    exact ⟨_, ho.trans (if_neg hw)⟩
  | readWidthOfByte space i width hs hw => exact buffer hs (.inr hw)
  | writeWidthOfByte space i width value hs hw => exact hostWrite_buffer_refused hs (.inr (.inl hw))
  | valueOfRegister n size width value hn hv =>
    obtain ⟨o, ho⟩ := hostWrite_register hn width value s
    rw [if_neg (Nat.not_lt.2 hv)] at ho
    by_cases hw : width = size
    · exact ⟨_, ho.trans (if_pos hw)⟩
    · exact ⟨_, ho.trans (if_neg hw)⟩
  | valueOfByte i width value hv => exact hostWrite_buffer_refused (space := .ibuf) (by decide) (.inr (.inr hv))

/-! ### What the other accesses do -/

/-- What an access that is not reserved leaves (42 R88 to R92). -/
inductive AccessEnd (s : State) : HostAccess → State → Prop where
  | returned (space : Space) (i width : Nat) (v : ReadValue) :
      AccessEnd s (.read space i width) (s.setOutputs (s.outputs ++ [v]))
  | ranCommand (v : Nat) (t : State) : CommandEnd s t → AccessEnd s (.write .reg 0 4 v) t
  | wroteIlen (v : Nat) : AccessEnd s (.write .reg 2 2 v) (s.setIlen (BitVec.ofNat 16 v))
  | wroteByte (i v : Nat) : AccessEnd s (.write .ibuf i 1 v) (s.setIbuf (s.ibuf.write i (BitVec.ofNat 8 v)))

theorem readWidth_eq_none : ∀ {n : Nat}, readWidth n = none → n = 0 ∨ 5 ≤ n
  | 0, _ => .inl rfl
  | n + 5, _ => .inr (Nat.le_add_left 5 n)

theorem writeWidth_eq_none : ∀ {n : Nat}, writeWidth n = none → n = 1 ∨ n = 3 ∨ n = 4 ∨ 5 ≤ n
  | 1, _ => .inl rfl
  | 3, _ => .inr (.inl rfl)
  | 4, _ => .inr (.inr (.inl rfl))
  | n + 5, _ => .inr (.inr (.inr (Nat.le_add_left 5 n)))

theorem hostRead_register_of_not_reserved {n width : Nat} {s : State} (h : ¬ Reserved s.cap (.read .reg n width)) :
    ∃ v, hostRead .reg n width s = returned v s := by
  cases hn : readWidth n with
  | none =>
    obtain rfl | h5 := readWidth_eq_none hn
    · exact absurd (.readOfCmd width) h
    · exact absurd (.readOfRegister n width h5) h
  | some size =>
    have hw : width = size := not_not.1 fun hw => h (.readWidthOfRegister n size width hn hw)
    obtain ⟨v, hv⟩ := hostRead_register hn width s
    exact ⟨v, hv.trans (if_pos hw)⟩

theorem hostRead_buffer_of_not_reserved {space : Space} {i width : Nat} {s : State} (hs : space ≠ .reg)
    (h : ¬ Reserved s.cap (.read space i width)) : ∃ v, hostRead space i width s = returned v s := by
  have hi : i < s.cap := not_le.1 fun hi => h (.readBeyond space i width hs hi)
  obtain rfl : width = 1 := not_not.1 fun hw => h (.readWidthOfByte space i width hs hw)
  obtain ⟨m, hm⟩ := hostRead_buffer hs i 1 s
  exact ⟨_, hm.trans (readBuffer_of_lt m hi)⟩

theorem hostWrite_cmd {value : Nat} (h : value < 2 ^ 32) (s : State) :
    hostWrite .reg 0 4 value s = writeCmd (BitVec.ofNat 32 value) s := by
  have he := performAccess_writeCmd (BitVec.ofNat 32 value) s
  rwa [BitVec.toNat_ofNat, Nat.mod_eq_of_lt h] at he

theorem hostWrite_register_of_not_reserved {n width value : Nat} {s : State}
    (h : ¬ Reserved s.cap (.write .reg n width value)) :
    ∃ t, hostWrite .reg n width value s = .next t ∧ AccessEnd s (.write .reg n width value) t := by
  cases hn : writeWidth n with
  | none =>
    obtain rfl | rfl | rfl | h5 := writeWidth_eq_none hn
    · exact absurd (.writeOfStatus width value) h
    · exact absurd (.writeOfOlen width value) h
    · exact absurd (.writeOfCapr width value) h
    · exact absurd (.writeOfRegister n width value h5) h
  | some size =>
    obtain rfl : width = size := not_not.1 fun hw => h (.writeWidthOfRegister n size width value hn hw)
    have hv : value < 2 ^ (8 * width) := not_le.1 fun hv => h (.valueOfRegister n width width value hn hv)
    rw [writeWidth.eq_def] at hn
    split at hn <;> cases hn
    · obtain ⟨t, ht, hend⟩ := writeCmd_ends (BitVec.ofNat 32 value) s
      exact ⟨t, (hostWrite_cmd hv s).trans ht, .ranCommand value t hend⟩
    · exact ⟨_, performAccess_writeIlen s hv, .wroteIlen value⟩

theorem hostWrite_buffer_of_not_reserved {space : Space} {i width value : Nat} {s : State} (hs : space ≠ .reg)
    (h : ¬ Reserved s.cap (.write space i width value)) :
    ∃ t, hostWrite space i width value s = .next t ∧ AccessEnd s (.write space i width value) t := by
  have hi : i < s.cap := not_le.1 fun hi => h (.writeBeyond space i width value hs hi)
  obtain rfl : width = 1 := not_not.1 fun hw => h (.writeWidthOfByte space i width value hs hw)
  cases space with
  | reg => exact absurd rfl hs
  | ibuf =>
    have hv : value < 2 ^ 8 := not_le.1 fun hv => h (.valueOfByte i 1 value hv)
    exact ⟨_, (if_neg (not_le.2 hi)).trans ((if_pos rfl).trans (if_pos hv)), .wroteByte i value⟩
  | obuf => exact absurd (.writeOfObuf i 1 value) h

/-- What an access that is not reserved can do. -/
theorem performAccess_of_not_reserved {a : HostAccess} {s : State} (h : ¬ Reserved s.cap a) :
    ∃ t, performAccess a s = .next t ∧ AccessEnd s a t := by
  have read {space : Space} {i width : Nat} (hv : ∃ v, hostRead space i width s = returned v s) :
      ∃ t, hostRead space i width s = .next t ∧ AccessEnd s (.read space i width) t := by
    obtain ⟨v, hv⟩ := hv
    exact ⟨_, hv, .returned space i width v⟩
  cases a with
  | read space i width =>
    by_cases hs : space = .reg
    · subst hs
      exact read (hostRead_register_of_not_reserved h)
    · exact read (hostRead_buffer_of_not_reserved hs h)
  | write space i width value =>
    by_cases hs : space = .reg
    · subst hs
      exact hostWrite_register_of_not_reserved h
    · exact hostWrite_buffer_of_not_reserved hs h

/-- Settles O40: clause by clause a reserved access is refused, and what no clause names is answered. -/
theorem reservedAccessesAreRefused : Obligations.ReservedAccessesAreRefused := by
  refine fun a s => ⟨refused_of_reserved, fun h => ?_⟩
  obtain ⟨t, ht, -⟩ := performAccess_of_not_reserved h
  exact ⟨t, ht⟩

theorem not_reserved_of_next {a : HostAccess} {s t : State} (h : performAccess a s = .next t) :
    ¬ Reserved s.cap a := by
  intro hr
  obtain ⟨r, he⟩ := refused_of_reserved hr
  cases h.symm.trans he

/-- Settles O48: of the four things an answered access can do, one is a write of CMD. -/
theorem accessesOtherThanCmdChangeOnlyTheirTarget : Obligations.AccessesOtherThanCmdChangeOnlyTheirTarget := by
  intro a s t h hcmd
  obtain ⟨t', he, hend⟩ := performAccess_of_not_reserved (not_reserved_of_next h)
  obtain rfl := next_inj (h.symm.trans he)
  cases hend with
  | returned space i width v => exact .inl ⟨space, i, width, v, rfl, rfl⟩
  | ranCommand v _ _ => exact absurd rfl (hcmd v)
  | wroteIlen v => exact .inr (.inl ⟨v, rfl, rfl⟩)
  | wroteByte i v => exact .inr (.inr ⟨i, v, rfl, rfl⟩)

end Sys2Proof.HostAccesses

/-! PROOF. What a step does with the first line of the script, and a run with the expansions of LOAD, READOUT and
COPYBACK (30_encoding R57, R58; 42_control_and_host R95; 70_reset_and_hazards R113, R128). -/

namespace Sys2Proof.Script

open Sys2Proof.Machine Sys2Proof.Laws Sys2Proof.IllegalWords Sys2Proof.Exceptions Sys2Proof.HostAccesses

/-! ### One step -/

/-- Settles O7: a step with no line left. -/
theorem quiescentWhenTheScriptIsAtItsEnd : Obligations.QuiescentWhenTheScriptIsAtItsEnd :=
  fun _ => step_of_no_line

/-- Settles O6: each of the three forms of the line is a write of the command's word to CMD. -/
theorem stepRunsTheDecodedCommand : Obligations.StepRunsTheDecodedCommand := by
  intro i s
  refine ⟨fun w rest hd hs => ?word, fun rest hwf hs => ?mnemonic, fun w hd => ?fetch⟩
  case word =>
    rw [step_of_script hs]
    exact (performLine_writeCmd w _).trans (writeCmd_of_command hd _)
  case mnemonic =>
    rw [step_of_script hs]
    exact writeCmd_of_command (Encoding.decodeOfEncodeGivesTheCommandBack i hwf) _
  case fetch =>
    have hw : BitVec.ofNat 32 (w.toNat % 2 ^ 32) = w := by
      rw [Nat.mod_eq_of_lt w.isLt, BitVec.ofNat_toNat, BitVec.setWidth_eq]
    rw [State.withFetchWord, hw, commandNext, step_of_script rfl]
    exact (performLine_writeCmd w _).trans (writeCmd_of_command hd _)

/-- Settles O28: the line is `clearEngine`, which leaves the reset values. -/
theorem resetLeavesTheResetValues : Obligations.ResetLeavesTheResetValues := by
  intro s rest hs
  exact ⟨clearEngine (s.setScript rest), step_of_script hs, ControlAndHost.statusClear_eq_zero, rfl, rfl, rfl, rfl,
    read_zero, read_zero, rfl, rfl, rfl, rfl, rfl⟩

/-- A line that is no host access answers a next state. -/
theorem performLine_next {l : ScriptLine} (h : ∀ a, l ≠ .access a) (s : State) : ∃ t, performLine l s = .next t := by
  cases l with
  | access a => exact absurd rfl (h a)
  | command i =>
    obtain ⟨t, ht, -⟩ := writeCmd_ends (encode i) s
    exact ⟨t, ht⟩
  | load bytes => exact ⟨_, rfl⟩
  | readout => exact ⟨_, rfl⟩
  | copyback => exact ⟨_, rfl⟩
  | reset => exact ⟨_, rfl⟩

/-- Settles O8: a host access answers a next state when it is not reserved, every other line always. -/
theorem stepAnswersNextUnlessReserved : Obligations.StepAnswersNextUnlessReserved := by
  intro s
  constructor
  · rintro ⟨t, ht⟩ ⟨a, rest, hs, hr⟩
    rw [step_of_script hs] at ht
    exact not_reserved_of_next (s := s.setScript rest) ht hr
  · intro h
    cases hs : s.script with
    | nil => exact ⟨s, step_of_no_line hs⟩
    | cons l rest =>
      rw [step_of_script hs]
      by_cases hl : ∃ a, l = .access a
      · obtain ⟨a, rfl⟩ := hl
        obtain ⟨t, ht, -⟩ := performAccess_of_not_reserved (s := s.setScript rest) fun hr => h ⟨a, rest, hs, hr⟩
        exact ⟨t, ht⟩
      · exact performLine_next (fun a ha => hl ⟨a, ha⟩) _

/-! ### A sequence stored byte by byte -/

/-- The buffer after one write for each byte of a sequence, from an index on. -/
def storeBytes (m : Memory) : Nat → List Byte → Memory
  | _, [] => m
  | i, b :: bs => storeBytes (m.write i b) (i + 1) bs

theorem read_storeBytes {m : Memory} (h : m.wf = true) (i : Nat) (bs : List Byte) (j : Nat) :
    (storeBytes m i bs).read j = if i ≤ j ∧ j < i + bs.length then bs.getD (j - i) 0x00#8 else m.read j := by
  induction bs generalizing m i with
  | nil => simp [storeBytes, Nat.not_lt.2]
  | cons b bs ih =>
    rw [storeBytes, ih (write_keeps_wf i b h), read_write h, List.length_cons]
    rcases Nat.lt_trichotomy j i with hj | rfl | hj
    · rw [if_neg (by omega), if_neg (by omega), if_neg (by omega)]
    · rw [if_neg (by omega), if_pos rfl, if_pos (by omega), Nat.sub_self, List.getD_cons_zero]
    · obtain ⟨d, rfl⟩ := Nat.exists_eq_add_of_lt hj
      rw [show i + d + 1 - i = d + 1 by omega, show i + d + 1 - (i + 1) = d by omega, List.getD_cons_succ,
        if_neg (show ¬ i + d + 1 = i by omega)]
      exact if_congr (by omega) rfl rfl

theorem read_storeBytes_zero {m : Memory} (h : m.wf = true) (bs : List Byte) (j : Nat) :
    (storeBytes m 0 bs).read j = if j < bs.length then bs.getD j 0x00#8 else m.read j := by
  simp [read_storeBytes h]

/-- The values that reads of `n` bytes of a buffer from an index on return. -/
def readValues (m : Memory) (i n : Nat) : List ReadValue := (List.range' i n).map fun j => .byte (m.read j)

theorem readValues_none (m : Memory) (i : Nat) : readValues m i 0 = [] := rfl

theorem readValues_succ (m : Memory) (i n : Nat) :
    readValues m i (n + 1) = .byte (m.read i) :: readValues m (i + 1) n := rfl

theorem readValues_zero (m : Memory) (n : Nat) :
    readValues m 0 n = (List.range n).map fun j => .byte (m.read j) := by
  rw [readValues, List.range_eq_range']

/-- The state after reads that returned these values, with these lines left. -/
def afterReads (s : State) (ls : List ScriptLine) (vs : List ReadValue) : State :=
  (s.setScript ls).setOutputs (s.outputs ++ vs)

@[simp] theorem afterReads_cap (s : State) (ls : List ScriptLine) (vs : List ReadValue) :
    (afterReads s ls vs).cap = s.cap := rfl

theorem afterReads_none (s : State) : afterReads s s.script [] = s :=
  congrArg s.setOutputs (List.append_nil _)

theorem afterReads_afterReads (s : State) (ls ls' : List ScriptLine) (vs vs' : List ReadValue) :
    afterReads (afterReads s ls vs) ls' vs' = afterReads s ls' (vs ++ vs') :=
  congrArg (s.setScript ls').setOutputs (List.append_assoc ..)

/-! ### Runs of an expansion's accesses -/

theorem run_loadBytes {s : State} {i n : Nat} {bs : List Byte} {rest : List ScriptLine}
    (hs : s.script = loadBytes i bs ++ rest) (hc : i + bs.length ≤ s.cap) :
    Host.Core.run Sys2Proof.core (n + bs.length) s =
      Host.Core.run Sys2Proof.core n ((s.setScript rest).setIbuf (storeBytes s.ibuf i bs)) := by
  induction bs generalizing s i with
  | nil =>
    obtain rfl : s.script = rest := hs
    rfl
  | cons b bs ih =>
    rw [List.length_cons] at hc ⊢
    exact (run_line hs (performLine_writeByte b _ (by simp; omega))).trans (ih rfl (by simp; omega))

theorem run_readoutBytes {s : State} {i k n : Nat} {rest : List ScriptLine}
    (hs : s.script = readoutBytes i k ++ rest) (hc : i + k ≤ s.cap) :
    Host.Core.run Sys2Proof.core (n + k) s =
      Host.Core.run Sys2Proof.core n (afterReads s rest (readValues s.obuf i k)) := by
  induction k generalizing s i with
  | zero =>
    obtain rfl : s.script = rest := hs
    rw [readValues_none, afterReads_none]
    rfl
  | succ k ih =>
    let u := afterReads s (readoutBytes (i + 1) k ++ rest) [.byte (s.obuf.read i)]
    calc
      _ = Host.Core.run Sys2Proof.core (n + k) u := run_line hs (performLine_readResult _ (by simp; omega))
      _ = Host.Core.run Sys2Proof.core n (afterReads u rest (readValues u.obuf (i + 1) k)) :=
        ih rfl (by simp [u]; omega)
      _ = _ := by
        rw [afterReads_afterReads, readValues_succ]
        rfl

theorem run_copybackBytes {s : State} {i k n : Nat} {rest : List ScriptLine}
    (hs : s.script = copybackBytes s.obuf i k ++ rest) (hc : i + k ≤ s.cap) :
    Host.Core.run Sys2Proof.core (n + 2 * k) s =
      Host.Core.run Sys2Proof.core n
        ((afterReads s rest (readValues s.obuf i k)).setIbuf (storeBytes s.ibuf i (s.obuf.readRange i k))) := by
  induction k generalizing s i with
  | zero =>
    obtain rfl : s.script = rest := hs
    rw [readValues_none, afterReads_none]
    rfl
  | succ k ih =>
    let lines := copybackBytes s.obuf (i + 1) k ++ rest
    let u := afterReads s (lineWriteByte i (s.obuf.read i) :: lines) [.byte (s.obuf.read i)]
    let stored := storeBytes s.ibuf i (s.obuf.readRange i (k + 1))
    let v := (u.setScript lines).setIbuf (s.ibuf.write i (s.obuf.read i))
    calc
      _ = Host.Core.run Sys2Proof.core (n + 2 * k + 1) u :=
        run_line hs (performLine_readResult _ (by simp; omega))
      _ = Host.Core.run Sys2Proof.core (n + 2 * k) v := run_line rfl (performLine_writeByte _ _ (by simp [u]; omega))
      _ = Host.Core.run Sys2Proof.core n ((afterReads v rest (readValues v.obuf (i + 1) k)).setIbuf
          (storeBytes v.ibuf (i + 1) (v.obuf.readRange (i + 1) k))) := ih rfl (by simp [v, u]; omega)
      _ = _ := by
        have houtputs := afterReads_afterReads s lines rest [.byte (s.obuf.read i)] (readValues s.obuf (i + 1) k)
        have hstored := congrArg (fun t : State => t.setIbuf stored) houtputs
        exact congrArg (Host.Core.run Sys2Proof.core n) hstored

/-! ### The pseudo-operations -/

theorem run_writeIlen {s : State} {v : Nat} {rest : List ScriptLine} (hs : s.script = lineWriteIlen v :: rest)
    (hv : v < 2 ^ 16) :
    Host.Core.run Sys2Proof.core 1 s = .next ((s.setScript rest).setIlen (BitVec.ofNat 16 v)) :=
  run_line (n := 0) hs (performLine_writeIlen _ hv)

/-- Settles O41: the line, a write for each byte, and the write of ILEN. -/
theorem loadStoresItsBytes : Obligations.LoadStoresItsBytes := by
  intro s bytes rest hw hc hs
  have hlen : bytes.length < 2 ^ 16 := hc.trans_lt s.capr.isLt
  let t := ((s.setScript rest).setIbuf (storeBytes s.ibuf 0 bytes)).setIlen (BitVec.ofNat 16 bytes.length)
  have hrun : Host.Core.run Sys2Proof.core (bytes.length + 2) s = .next t :=
    calc
      _ = Host.Core.run Sys2Proof.core (1 + bytes.length) (s.setScript (expandLoad bytes ++ rest)) := by
        rw [Nat.add_comm 1]
        exact run_line hs rfl
      _ = _ := run_loadBytes (List.append_assoc ..) (by simpa using hc)
      _ = _ := run_writeIlen rfl hlen
  exact ⟨t, hrun, read_storeBytes_zero hw bytes, (BitVec.toNat_ofNat ..).trans (Nat.mod_eq_of_lt hlen), rfl⟩

/-- Settles O42: the line, the reads of STATUS and OLEN, and a read for each byte. -/
theorem readoutReturnsTheResult : Obligations.ReadoutReturnsTheResult := by
  intro s rest hc hs
  rw [← readValues_zero, List.append_assoc]
  let reads := readoutBytes 0 s.olen.toNat ++ rest
  let u := afterReads s (lineReadOlen :: reads) [.byte s.status]
  let v := afterReads u reads [.half s.olen]
  calc
    _ = Host.Core.run Sys2Proof.core (s.olen.toNat + 2) (s.setScript (expandReadout s ++ rest)) := run_line hs rfl
    _ = Host.Core.run Sys2Proof.core (s.olen.toNat + 1) u := run_line rfl rfl
    _ = Host.Core.run Sys2Proof.core (0 + s.olen.toNat) v := by
      rw [Nat.zero_add]
      exact run_line rfl rfl
    _ = .next (afterReads v rest (readValues s.obuf 0 s.olen.toNat)) := run_readoutBytes rfl (by simpa [v, u] using hc)
    _ = _ := by
      rw [afterReads_afterReads, afterReads_afterReads]
      rfl

/-- Settles O43: the line, the read of OLEN, a read and a write for each byte, and the write of ILEN. -/
theorem copybackMakesTheResultTheInput : Obligations.CopybackMakesTheResultTheInput := by
  intro s rest hw hc hs
  rw [← readValues_zero, List.append_assoc]
  let stored := storeBytes s.ibuf 0 (s.obuf.readRange 0 s.olen.toNat)
  let values := readValues s.obuf 0 s.olen.toNat
  let lines := copybackBytes s.obuf 0 s.olen.toNat ++ lineWriteIlen s.olen.toNat :: rest
  let u := afterReads s lines [.half s.olen]
  let t := ((afterReads s rest ([.half s.olen] ++ values)).setIbuf stored).setIlen s.olen
  have hrun : Host.Core.run Sys2Proof.core (2 * s.olen.toNat + 3) s = .next t :=
    calc
      _ = Host.Core.run Sys2Proof.core (2 * s.olen.toNat + 2) (s.setScript (expandCopyback s ++ rest)) :=
        run_line hs rfl
      _ = Host.Core.run Sys2Proof.core (1 + 2 * s.olen.toNat) u := by
        rw [Nat.add_comm 1]
        exact run_line (congrArg (lineReadOlen :: ·) (List.append_assoc ..)) rfl
      _ = _ := run_copybackBytes rfl (by simpa [u] using hc)
      _ = _ := run_writeIlen rfl s.olen.isLt
      _ = .next t := by
        have houtputs := afterReads_afterReads s lines rest [.half s.olen] values
        rw [BitVec.ofNat_toNat, BitVec.setWidth_eq]
        exact congrArg (fun w : State => Host.Outcome.next ((w.setIbuf stored).setIlen s.olen)) houtputs
  refine ⟨t, hrun, rfl, fun j => ?_, rfl⟩
  have hread := read_storeBytes_zero hw (s.obuf.readRange 0 s.olen.toNat) j
  rw [readRange_length, readRange_getD, Nat.zero_add] at hread
  rw [show t.ibuf = stored from rfl, hread]
  split <;> rfl

end Sys2Proof.Script

/-! PROOF. How every command ends, read off from the conditions of its failures and of its success: the two completions
(60 R101, R102), the lengths of the table and the draws (40_keygen R61, R71, R72; 20_memory R45). -/

namespace Sys2Proof.CommandEnds

open Sys2Proof.Machine Sys2Proof.Laws Sys2Proof.KeyGeneration Sys2Proof.Pkcs7 Sys2Proof.Exceptions

/-! ### The result of a success -/

theorem delivered_fits {i : Instr} {s : State} {r : List Byte} {n : Nat} (h : Delivers s i r n) :
    r.length ≤ s.cap := by
  cases h with
  | generated hn hc hb => exact hc
  | padded imm hfit =>
    obtain ⟨-, -, hc⟩ := hfit
    rwa [padded_length]
  | unpadded hc hv =>
    rw [unpadded, readRange_length]
    exact (Nat.sub_le _ _).trans hc

/-- A command that delivers ends by the success completion with a result of that length, whatever OBUF held. -/
theorem completes_of_delivers {i : Instr} {s t : State} {r : List Byte} {n : Nat} (he : exec i s = .next t)
    (h : Delivers s i r n) : ∃ r', r'.length = r.length ∧ SucceedsWith r' n s t := by
  cases h with
  | generated hn hc hb =>
    obtain ⟨r', hl, -, hg⟩ := genBytes_delivers hc hb
    obtain rfl := next_inj ((exec_of_requests hn s).symm.trans he)
    refine ⟨r', hl, ?_⟩
    rw [hg]
    exact complete_succeeds r' _ s (hl ▸ hc.trans_lt s.capr.isLt)
  | padded imm hfit =>
    obtain rfl := next_inj he
    exact ⟨_, rfl, padCommand_succeeds hfit⟩
  | unpadded hc hv =>
    obtain rfl := next_inj he
    exact ⟨_, rfl, unpadCommand_succeeds hc hv⟩

/-- No decoded command reports IllegalCommand. -/
theorem statusFailure_of_reports {i : Instr} {s : State} {f : Failure} {n : Nat} (h : Reports i s f n) :
    statusFailure f ∈ [0x11#8, 0x12#8, 0x13#8, 0x15#8] := by
  cases h with
  | invalidParameter => decide
  | capacityExceeded => decide
  | entropySourceError => decide
  | invalidPadding => decide

/-- Settles O32: a command that delivers completes with a result that fits, one that reports is raised with its code. -/
theorem commandsEndByCompleteOrRaise : Obligations.CommandsEndByCompleteOrRaise := by
  intro i s hclr
  obtain ⟨t, he, -⟩ := exec_ends i s
  refine ⟨t, he, ?_⟩
  obtain ⟨f, n, hr⟩ | ⟨r, n, hr⟩ := reports_or_delivers hclr s
  · exact .inr ⟨_, n, statusFailure_of_reports hr, failsWith_of_reports he hr⟩
  · obtain ⟨r', hl, hs⟩ := completes_of_delivers he hr
    exact .inl ⟨r', n, hl.trans_le (delivered_fits hr), hs⟩

/-! ### Lengths and draws -/

/-- Settles O15: a generation command delivers what the table asks for, or reports a failure and leaves OLEN 0. -/
theorem generatedLengthsAreThoseOfTheTable : Obligations.GeneratedLengthsAreThoseOfTheTable := by
  intro i s t hg he
  have hclr : i ≠ .clr := by rintro rfl; cases hg
  obtain ⟨f, n, hr⟩ | ⟨r, n, hr⟩ := reports_or_delivers hclr s
  · refine ⟨fun h0 => ?_, fun _ => (failsWith_of_reports he hr).olen⟩
    exact absurd ((err_of_reports he hr).symm.trans h0) (failureCode_ne_zero f)
  · refine ⟨fun _ => ?_, fun hne => absurd (err_of_delivers he hr) hne⟩
    obtain ⟨r', hl, hs⟩ := completes_of_delivers he hr
    cases hr with
    | generated hn hc hb => exact ⟨_, hn, hc, hs.olen.trans hl, hs.drawn.draws⟩
    | padded imm hfit => cases hg
    | unpadded hc hv => cases hg

theorem madeDraws_zero_clearEngine (s : State) : MadeDraws 0 s (clearEngine s) := ⟨rfl, rfl⟩

/-- Settles O18: draws are made by a request only, up to its first unanswered draw or all of them. -/
theorem onlyGenerationCommandsDraw : Obligations.OnlyGenerationCommandsDraw := by
  intro i s t he
  by_cases hclr : i = .clr
  · subst hclr
    obtain rfl := next_inj he
    exact ⟨0, madeDraws_zero_clearEngine s, fun h => absurd rfl h⟩
  obtain ⟨f, n, hr⟩ | ⟨r, n, hr⟩ := reports_or_delivers hclr s
  · refine ⟨n, (failsWith_of_reports he hr).drawn, fun h0 => ?_⟩
    cases hr with
    | entropySourceError m k hm hc hk => exact ⟨generates_of_requests hm, m, hm, hc, hk⟩
    | invalidParameter => exact absurd rfl h0
    | capacityExceeded => exact absurd rfl h0
    | invalidPadding => exact absurd rfl h0
  · obtain ⟨r', -, hs⟩ := completes_of_delivers he hr
    refine ⟨n, hs.drawn, fun h0 => ?_⟩
    cases hr with
    | generated hm hc => exact ⟨generates_of_requests hm, _, hm, hc, le_rfl⟩
    | padded imm hfit => exact absurd rfl h0
    | unpadded hc hv => exact absurd rfl h0

/-! ### The entropy port -/

/-- Settles O16: the byte is written through RNGOUT, which is emptied. -/
theorem outputRegisterDeliversOneByte : Obligations.OutputRegisterDeliversOneByte := by
  intro k b s hw
  rw [deliver_eq]
  exact ⟨fun j => read_write hw k j b, write_keeps_wf k b hw, rfl, rfl, rfl⟩

theorem nthDraw_of_answers {s : State} {bs : List Byte} {rest : List Draw} (h : s.answers = bs.map Draw.byte ++ rest)
    (k : Nat) (hk : k < bs.length) : s.nthDraw k = .byte bs[k] := by
  have hanswer : s.answers[k]? = some (.byte bs[k]) := by
    rw [h, List.getElem?_append_left (by simpa using hk), List.getElem?_map, List.getElem?_eq_getElem hk,
      Option.map_some]
  rw [State.nthDraw, hanswer]

/-- One KEYDES on eight bytes that the source answers. -/
theorem keydes_of_answers {bs : List Byte} {rest : List Draw} {s : State} (hw : s.obuf.wf = true)
    (hc : Config.minCap ≤ s.cap) (hl : bs.length = 8) (ha : s.answers = bs.map Draw.byte ++ rest) :
    ∃ t, exec (.keydes 0#16) s = .next t ∧ SucceedsWith bs 8 s t ∧ t.answers = rest := by
  obtain ⟨answered, -⟩ := keydesRule
  obtain ⟨t, he, hs⟩ := answered bs s hw hc hl (nthDraw_of_answers ha)
  refine ⟨t, he, hs, ?_⟩
  rw [hs.drawn.answers, ha, List.drop_left' (by simpa using hl)]

/-- Settles O17: each KEYDES delivers the eight bytes it draws, and nothing compares the two. -/
theorem theSameKeyTwiceIsAdmitted : Obligations.TheSameKeyTwiceIsAdmitted := by
  intro bs rest s hw hc hl ha
  obtain ⟨t, ht, hst, hat⟩ := keydes_of_answers hw hc hl ha
  have hct : Config.minCap ≤ t.cap := by rwa [cap_of_capr, hst.kept.capr]
  obtain ⟨u, hu, hsu, hau⟩ := keydes_of_answers hst.form hct hl hat
  obtain ⟨-, -, hobuf⟩ := sameOutcome_of_succeedsWith hsu hst
  have holen {v w : State} (h : SucceedsWith bs 8 v w) : w.olen = 8#16 := BitVec.eq_of_toNat_eq (h.olen.trans hl)
  refine ⟨t, u, ht, hu, holen hst, holen hsu, hobuf, fun k hk => ?_, hau⟩
  rw [hsu.result, List.getD_eq_getElem _ _ hk]

end Sys2Proof.CommandEnds

/-! PROOF. PAD and UNPAD: the block size UNPAD does not check (41_pkcs7 R82), PAD after UNPAD (R84), and either of them,
or CLR, written twice (20_memory R36). -/

namespace Sys2Proof.Pkcs7

open Sys2Proof.Machine Sys2Proof.Laws

/-! ### UNPAD knows no block size (41_pkcs7 R82) -/

/-- The one divisor of 257 that a block size can be is 1. -/
theorem eq_one_of_dvd_257 {b : Nat} (hb : b ≤ 255) (h : 257 % b = 0) : b = 1 := by
  have hprime : Nat.Prime 257 := by norm_num
  rcases (Nat.dvd_prime hprime).1 (Nat.dvd_of_mod_eq_zero h) with h1 | h257
  · exact h1
  · omega

/-- Settles O24: the last byte 2 and the one before it pass the three checks; 257 is a multiple of no block size but 1,
which would allow a last byte 1 only. -/
theorem unpadKnowsNoBlockSize : Obligations.UnpadKnowsNoBlockSize := by
  intro s hilen hcap hzero h255 h256
  have hlen : s.ilen.toNat = 257 := by rw [hilen]; rfl
  have hlast : (s.ibuf.read (257 - 1)).toNat = 2 := by rw [h256]; rfl
  refine ⟨?succeeds, fun blockSize hp => ?noBlockSize⟩
  case succeeds =>
    have hv : ValidPadding s.ibuf s.ilen.toNat := by
      rw [hlen, ValidPadding, hlast]
      refine ⟨by decide, by decide, by decide, fun j hj hj' => ?_⟩
      obtain rfl | rfl : j = 255 ∨ j = 256 := by omega
      · exact h255.trans h256.symm
      · rfl
    have h := unpadCommand_succeeds (by omega) hv
    rw [hlen, hlast] at h
    refine ⟨_, exec_unpad s, h.status, BitVec.eq_of_toNat_eq (h.olen.trans (readRange_length _ _ _)), fun i => ?_⟩
    rw [h.result, readRange_getD, Nat.zero_add]
    split
    · next hi => exact hzero i hi
    · rfl
  case noBlockSize =>
    obtain ⟨-, hb, -, hmod, -, hn, -⟩ := hp
    rw [eq_one_of_dvd_257 hb hmod, hlast] at hn
    omega

/-! ### PAD after UNPAD (41_pkcs7 R84) -/

theorem validPadding_of_isPaddedBuffer {b : Nat} {m : Memory} {len : Nat} (h : IsPaddedBuffer b m len) :
    ValidPadding m len := by
  obtain ⟨hb, -, hlen, hmod, h1, hn, hall⟩ := h
  have hle : b ≤ len := Nat.le_of_dvd hlen (Nat.dvd_of_mod_eq_zero hmod)
  exact ⟨hlen, h1, hn.trans hle, hall⟩

/-- A whole number of blocks without its last `n` bytes, `n` at most a block, lacks `n` bytes to the block boundary. -/
theorem padLength_sub {b len n : Nat} (hmod : len % b = 0) (h1 : 1 ≤ n) (hn : n ≤ b) (hlen : n ≤ len) :
    padLength b (len - n) = n := by
  obtain ⟨q, rfl⟩ := Nat.dvd_of_mod_eq_zero hmod
  cases q with
  | zero => omega
  | succ q =>
    have hblocks : b * (q + 1) - n = b - n + b * q := by
      rw [Nat.mul_succ]
      omega
    rw [padLength, hblocks, Nat.add_mul_mod_self_left, Nat.mod_eq_of_lt (by omega)]
    omega

/-- Settles O26: what UNPAD leaves of whole blocks lacks the `N` bytes it took off, and PAD appends `N` bytes `N`. -/
theorem padInvertsUnpadOnPaddedBuffers : Obligations.PadInvertsUnpadOnPaddedBuffers := by
  intro imm s hc hp
  have hv := validPadding_of_isPaddedBuffer hp
  have hs := unpadCommand_succeeds hc hv
  obtain ⟨hb1, hb2, hlen, hmod, h1, hn, hall⟩ := hp
  obtain ⟨-, -, hnlen, -⟩ := hv
  refine ⟨_, exec_unpad s, hs.status, fun u hcapr hilen hcopy => ?_⟩
  generalize hN : (s.ibuf.read (s.ilen.toNat - 1)).toNat = n at *
  have hulen : u.ilen.toNat = s.ilen.toNat - n := by rw [hilen, hs.olen, readRange_length]
  have hpad : padLength imm.toNat u.ilen.toNat = n := by rw [hulen, padLength_sub hmod h1 hn hnlen]
  have hsum : u.ilen.toNat + n = s.ilen.toNat := by omega
  have hfit : PadFits imm u := ⟨hb1, hb2, by rwa [hpad, hsum, cap_of_capr, hcapr]⟩
  have hv := padCommand_succeeds hfit
  refine ⟨_, exec_pad imm u, hv.status, BitVec.eq_of_toNat_eq ?_, fun i hi => ?_⟩
  · rw [padCommand_olen hfit, hpad, hsum]
  · by_cases hlow : i < u.ilen.toNat
    · rw [padCommand_keeps_data hfit hlow, hcopy i (hilen ▸ hlow), hs.result, readRange_getD, if_pos (by omega),
        Nat.zero_add]
    · rw [padCommand_appends_padLength hfit (by omega) (by omega), hpad, hall i (by omega) (by omega), ← hN]
      simp

/-! ### Written twice (20_memory R36) -/

theorem padCommand_completes {imm : Half} {s : State} (h : PadFits imm s) :
    padCommand imm s = complete (padded imm.toNat s) s := by
  obtain ⟨h1, h2, hfit⟩ := h
  obtain ⟨hb, -⟩ | ⟨-, -, hc, -⟩ | ⟨-, -, -, he⟩ := padCommand_cases imm s
  · omega
  · omega
  · exact he

theorem unpadCommand_completes {s : State} (hc : s.ilen.toNat ≤ s.cap) (h : ValidPadding s.ibuf s.ilen.toNat) :
    unpadCommand s = complete (Exceptions.unpadded s) s := by
  obtain ⟨hc', -⟩ | ⟨-, hv, -⟩ | ⟨-, -, he⟩ := unpadCommand_cases s
  · omega
  · exact absurd h hv
  · exact he

/-- Neither end of PAD touches what selects it, so the second PAD ends as the first. -/
theorem padCommand_idem (imm : Half) (s : State) : padCommand imm (padCommand imm s) = padCommand imm s := by
  obtain ⟨hb, he⟩ | ⟨h1, h2, hc, he⟩ | ⟨h1, h2, hc, -⟩ := padCommand_cases imm s
  · rw [he, padCommand_invalidParameter hb]
    rfl
  · rw [he, padCommand_capacityExceeded (s := raise _ s) h1 h2 hc]
    rfl
  · have hfit : PadFits imm s := ⟨h1, h2, hc⟩
    rw [padCommand_completes hfit, padCommand_completes (s := complete _ s) hfit]
    rfl

theorem unpadCommand_idem (s : State) : unpadCommand (unpadCommand s) = unpadCommand s := by
  obtain ⟨hc, he⟩ | ⟨hc, hv, he⟩ | ⟨hc, hv, -⟩ := unpadCommand_cases s
  · rw [he, unpadCommand_capacityExceeded (s := raise _ s) hc]
    rfl
  · rw [he, unpadCommand_invalidPadding (s := raise _ s) hc hv]
    rfl
  · rw [unpadCommand_completes hc hv, unpadCommand_completes (s := complete _ s) hc hv]
    rfl

theorem clearEngine_idem (s : State) : clearEngine (clearEngine s) = clearEngine s := rfl

/-- Settles O35: each of the three commands is idempotent. -/
theorem padUnpadClrTwiceIsOnce : Obligations.PadUnpadClrTwiceIsOnce := by
  rintro i s t (rfl | rfl | ⟨imm, rfl⟩) he
  · obtain rfl := next_inj he
    exact congrArg Host.Outcome.next (unpadCommand_idem s)
  · obtain rfl := next_inj he
    exact congrArg Host.Outcome.next (clearEngine_idem s)
  · obtain rfl := next_inj he
    exact congrArg Host.Outcome.next (padCommand_idem imm s)

end Sys2Proof.Pkcs7
